-- ==== Sys2Proof/Word.lean ====
section
/-! DEFINITION. The words of the block: the bit vectors the spec gives a width (R10, R71, R75). -/

namespace Sys2Proof

/-- A byte of shard storage (R10). -/
abbrev Byte := BitVec 8

/-- The `ARG` field of a command word: the width of NEW, the bit number of an accessor (R71, R72). -/
abbrev Arg := BitVec 64

/-- The `OP` field of a command word (R71). -/
abbrev Opcode := BitVec 4

/-- A whole command word `{OP, ARG}` (R71). -/
abbrev CommandWord := BitVec 68

/-- A whole response word `{STATUS, RESULT}` (R75). -/
abbrev ResponseWord := BitVec 4

/-- A shard index, and the shard count register (R10). -/
abbrev ShardIdx := BitVec 33

/-- A within-shard bit offset (R10). -/
abbrev Within := BitVec 31

/-- A byte index inside a shard (R10). -/
abbrev ByteIdx := BitVec 28

/-- A bit offset inside a byte (R10). -/
abbrev BitOff := BitVec 3

/-- The allocated byte length of one shard, a `shardLen` register (R20). -/
abbrev ShardBytes := BitVec 29

end Sys2Proof
end

