-- ==== Sys2Proof/Syntax.lean ====
section
/-! DEFINITION. The commands, the outcomes a response names, and the assembly lines of the block, as syntax. -/

namespace Sys2Proof

/-- A command: one constructor per row of spec/opcode_table.json (R73). The operand is the whole `ARG` field; the
spec reads it as the two's complement integer `signed64 ARG` (R72). -/
inductive Instr where
  /-- NEW, `OP = 0x1`: construct the vector of width `signed64 w` (R90). -/
  | new (w : Arg)
  /-- SET, `OP = 0x2`: set the addressed bit to 1 (R101). -/
  | set (b : Arg)
  /-- CLEAR, `OP = 0x3`: clear the addressed bit to 0 (R106). -/
  | clear (b : Arg)
  /-- TEST, `OP = 0x4`: read the addressed bit (R111). -/
  | test (b : Arg)
  /-- FLIP, `OP = 0x5`: invert the addressed bit (R116). -/
  | flip (b : Arg)
  deriving DecidableEq, Repr

/-- Why a command word stands for no command: its `OP` is reserved (R74). The block does not stop on it, it answers
`RESERVED_OP` (R145). -/
inductive DecodeError where
  | reservedOp (op : Opcode)
  deriving DecidableEq, Repr

/-- The outcome a response reports (R76). -/
inductive Status where
  | ok
  | outOfRange
  | invalidWidth
  | allocFail
  | reservedOp
  | alreadyConstructed
  deriving DecidableEq, Repr

/-- A response read as its two fields (R75). -/
structure Response where
  status : Status
  result : Bool
  deriving DecidableEq, Repr

/-- One assembly line, its operand expression already evaluated to an integer (R79). `raw` is the encoding
directive RAW, which is no command (R80). -/
inductive AsmLine where
  | new (w : Int)
  | set (b : Int)
  | clear (b : Int)
  | test (b : Int)
  | flip (b : Int)
  | raw (op arg : Int)
  deriving DecidableEq, Repr

end Sys2Proof
end

