-- ==== Sys2Proof/WellFormed.lean ====
section
/-! DEFINITION. Which terms of the syntax are well formed. -/

namespace Sys2Proof

/-- Every command is well formed: `ARG` is used whole, no bit of it is ignored and every value of it is a legal
encoding (R72). The match names every constructor, so that a new one cannot slip past. -/
def Instr.wf : Instr → Bool
  | .new _ => true
  | .set _ => true
  | .clear _ => true
  | .test _ => true
  | .flip _ => true

/-- An operand of the assembly syntax lies in `-2^63 .. 2^64 - 1` (R79). -/
def operandFits (v : Int) : Bool := decide (-9223372036854775808 ≤ v) && decide (v < 18446744073709551616)

/-- The first operand of RAW is any 4-bit value (R79). -/
def opFits (v : Int) : Bool := decide (0 ≤ v) && decide (v < 16)

/-- An assembly line is well formed when its operands are in range (R79). -/
def AsmLine.wf : AsmLine → Bool
  | .new w => operandFits w
  | .set b => operandFits b
  | .clear b => operandFits b
  | .test b => operandFits b
  | .flip b => operandFits b
  | .raw op arg => opFits op && operandFits arg

end Sys2Proof
end

