-- ==== Sys2Proof/Decode.lean ====
section
/-! DEFINITION. The command decoder (R71 to R74), and after it the encoder, written from the same table (R73). -/

namespace Sys2Proof

/-- The `OP` field, bits 67:64 of a command word (R71). -/
def opField (w : CommandWord) : Opcode := w.extractLsb' 64 4

/-- The `ARG` field, bits 63:0 of a command word (R71). -/
def argField (w : CommandWord) : Arg := w.extractLsb' 0 64

/-- The command a word stands for: `OP` alone selects it (R73); 0x0 and 0x6 to 0xF are reserved (R74). -/
def decode (w : CommandWord) : Except DecodeError Instr :=
  match (opField w).toNat with
  | 1 => .ok (.new (argField w))
  | 2 => .ok (.set (argField w))
  | 3 => .ok (.clear (argField w))
  | 4 => .ok (.test (argField w))
  | 5 => .ok (.flip (argField w))
  | _ => .error (.reservedOp (opField w))

/-- The `OP` value of a command (R73). -/
def Instr.opcode : Instr → Opcode
  | .new _ => 0x1#4
  | .set _ => 0x2#4
  | .clear _ => 0x3#4
  | .test _ => 0x4#4
  | .flip _ => 0x5#4

/-- The `ARG` value of a command (R71). -/
def Instr.arg : Instr → Arg
  | .new w => w
  | .set b => b
  | .clear b => b
  | .test b => b
  | .flip b => b

/-- The word of a command, `{OP, ARG}` (R71). -/
def encode (i : Instr) : CommandWord := i.opcode ++ i.arg

/-- The command word whose bits, numbered as spec/opcode_table.json numbers them (bit 0 least significant), are the
number `w`; none when `w` has a bit above bit 67, which no command word has (R71, R78). -/
def wordOfBits (w : Nat) : Option CommandWord :=
  if w < 295147905179352825856 then some (BitVec.ofNat 68 w) else none

/-- What the decoder reads from an instruction whose bits are `w`. A command is one word of one length and has no
byte serialization (R70, R78), so `nbits` (68 rounded up to whole bytes) picks nothing (entry 18). -/
def decodeTableWord (_nbits w : Nat) : Option Instr :=
  match wordOfBits w with
  | none => none
  | some c =>
    match decode c with
    | .ok i => some i
    | .error _ => none

end Sys2Proof
end

