-- ==== Sys2Proof/Config.lean ====
section
/-! DEFINITION. The parameters of the block (R6 to R8), and the values the spec leaves open, which nothing can evaluate. -/

namespace Sys2Proof.Config

/-- `SHARD_BITS`, the `S` of the spec: the bit numbers one shard covers (R6). The spec marks its digits as
general knowledge: PRESUMED by the spec itself, unsafe if another constant was meant (entry 15). -/
def shardBits : Nat := 2147483647

/-- `SHARD_BYTES_FULL`: the byte length of a full shard, `2 ^ 28` (R7). -/
def shardBytesFull : Nat := 268435456

/-- The physical storage parameters the source leaves open (R8): how many shard memories stand behind the mux, and
how many bytes each has. -/
structure Params where
  maxShards : Nat
  shardMemBytes : Nat
  deriving DecidableEq, Repr

/-- The values R8 allows: `1 <= MAX_SHARDS <= 2^32 + 3` and `1 <= SHARD_MEM_BYTES <= 2^28`. -/
abbrev Params.legal (p : Params) : Prop :=
  1 ≤ p.maxShards ∧ p.maxShards ≤ 4294967299 ∧ 1 ≤ p.shardMemBytes ∧ p.shardMemBytes ≤ 268435456

/-- The parameters of the one fixed reset state `State.reset`: the largest R8 allows.
DESIGN CHOICE (entry 4), unsafe for a claim about `State.reset` alone; claims are stated for every parameters. -/
def physical : Params := { maxShards := 4294967299, shardMemBytes := 268435456 }

/-- What the storage byte at a linear address holds after the reset pulse number `epoch` while nothing has written
it: "unspecified (any value)" (R34), "a draw per byte" (93_implementation_defined.md U1). Free, safe (entry 5). -/
opaque powerOnByte (epoch addr : Nat) : Byte

/-- The `shard_idx` output for a negative bit number: unspecified (R46). Free, safe (entry 9). -/
opaque negShardIdx (bitNum width : Arg) (shardCount : ShardIdx) : ShardIdx

/-- The `within` output for a negative bit number: unspecified (R46). Free, safe (entry 9). -/
opaque negWithin (bitNum width : Arg) (shardCount : ShardIdx) : Within

/-- The `byte_idx` output for a negative bit number: unspecified (R46). Free, safe (entry 9). -/
opaque negByteIdx (bitNum width : Arg) (shardCount : ShardIdx) : ByteIdx

/-- The `bit_off` output for a negative bit number: unspecified (R46). Free, safe (entry 9). -/
opaque negBitOff (bitNum width : Arg) (shardCount : ShardIdx) : BitOff

end Sys2Proof.Config
end

