-- ==== Sys2Proof/Machine/State.lean ====
section
/-! DEFINITION. Everything the machine holds (R20), the ways it can stop, and its state after reset (R34). -/

namespace Sys2Proof.Machine

/-- Why the machine stops with a fault. -/
inductive Fault where
  /-- Raised by `memRead` and `memWrite` for a byte that no physical shard memory has (R25, R32). The spec says no
  command reaches such a byte (R26); only a state outside the invariant raises it. Safe (entry 11). -/
  | absentByte (shard byte : Nat)
  deriving DecidableEq, Repr

/-- Why an instruction is refused. -/
inductive Refusal where
  /-- Raised by an arm of `exec` that gives an instruction no meaning; no arm of this model raises it. Safe. -/
  | notModelled (mnemonic : String)
  deriving DecidableEq, Repr

/-- What the host sends (R164), in the order in which the block takes it. -/
inductive HostInput where
  /-- One command word on the command port (R70). -/
  | command (word : CommandWord)
  /-- A reset pulse between two commands (R160). -/
  | reset
  /-- A reset pulse while the block performs the command `word`, which is abandoned (R161). -/
  | resetDuring (word : CommandWord)
  deriving DecidableEq, Repr

/-- `count` shards in a row with the allocated byte length `len`: a piece of the register array `shardLen` (R20). -/
structure ShardRun where
  count : Nat
  len : ShardBytes
  deriving DecidableEq, Repr

/-- The shard storage (R25): `cells` lists the bytes that differ from the background. The background is 0x00 below
`zeroedBelow` (the bytes NEW zeroed, R53) and the power-on contents of `epoch` above it (R34). -/
structure Memory where
  epoch : Nat
  zeroedBelow : Nat
  cells : List Host.Cell
  deriving DecidableEq, Repr

/-- The state of the block (R20), and beside it the model's own fields: the parameters, which no command writes
(R8, entry 4), and the two ports (R70, entries 1 and 2). -/
structure State where
  /-- `MAX_SHARDS` and `SHARD_MEM_BYTES` of this block (R8): configuration. -/
  phys : Config.Params
  /-- 1 after a successful NEW (R21). -/
  configured : Bool
  /-- LogicalWidth (R22). -/
  width : Arg
  /-- The number of allocated shards (R23). -/
  shardCount : ShardIdx
  /-- The registers `shardLen[i]` in order of `i` as runs; an index past the last run holds 0 (R24, entry 8). -/
  shardLen : List ShardRun
  /-- The bytes `Shard(i).byte[j]` (R25). -/
  storage : Memory
  /-- What the host sends and the block has not taken yet (R70, R166): the model's own field. -/
  inputs : List HostInput
  /-- The response words returned so far, oldest first (R70): the model's own field. -/
  responses : List ResponseWord
  deriving DecidableEq, Repr

/-- The block right after reset, for the storage parameters `p` (R34, R160): unconfigured, the registers 0, no byte
written since, nothing sent and nothing answered. -/
def State.resetWith (p : Config.Params) : State where
  phys := p
  configured := false
  width := 0#64
  shardCount := 0#33
  shardLen := []
  storage := { epoch := 0, zeroedBelow := 0, cells := [] }
  inputs := []
  responses := []

/-- The block right after reset (R34), with the parameters `Config.physical` (entry 4). -/
def State.reset : State := State.resetWith Config.physical

/-- What a step, an instruction or an operation of the machine answers. -/
abbrev Result := Host.Outcome State Fault Refusal

end Sys2Proof.Machine
end

