-- ==== Sys2Proof/Machine/Operands.lean ====
section
/-! DEFINITION. The one operand form of the block: `ARG` as an integer, the address decoder (R40 to R48), and the
shape arithmetic of NEW (R24, R91, R94). All of it is exact integer arithmetic (R133). -/

namespace Sys2Proof.Machine

/-- `signed64(v)`: the integer a 64-bit word denotes in two's complement (R12). -/
def signed64 (v : Arg) : Int := if v.toNat < 9223372036854775808 then (v.toNat : Int) else (v.toNat : Int) - 18446744073709551616

/-- `ceil(a / b)` (R11). -/
def ceilDiv (a b : Nat) : Nat := (a + b - 1) / b

/-! ## The addressing function (R41), on the full bit number (R42) -/

/-- `shardIdx = b / S`. -/
def shardOf (b : Nat) : Nat := b / Config.shardBits

/-- `withinShard = b % S`. -/
def withinOf (b : Nat) : Nat := b % Config.shardBits

/-- `byteIdx = withinShard / 8`. -/
def byteOf (b : Nat) : Nat := withinOf b / 8

/-- `bitOffset = withinShard % 8`, 0 the least significant bit of the byte (R48). -/
def bitOf (b : Nat) : Nat := withinOf b % 8

/-! ## The decoder as the hardware block (R40) -/

/-- The output ports of the decoder (R40). -/
structure DecoderOut where
  shardIdx : ShardIdx
  within : Within
  byteIdx : ByteIdx
  bitOff : BitOff
  inRange : Bool
  deriving DecidableEq, Repr

/-- The output `shard_idx` (R41); unspecified for a negative bit number (R46). -/
def decoderShardIdx (bitNum width : Arg) (shardCount : ShardIdx) : ShardIdx :=
  if signed64 bitNum < 0 then Config.negShardIdx bitNum width shardCount
  else BitVec.ofNat 33 (shardOf (signed64 bitNum).toNat)

/-- The output `in_range`: the three terms of the range check (R43), the last one the "defensive double-check"
(90_conflicts.md C7). -/
def decoderInRange (bitNum width : Arg) (shardCount : ShardIdx) : Bool :=
  decide (0 ≤ signed64 bitNum) && decide (signed64 bitNum < (width.toNat : Int)) &&
    decide ((decoderShardIdx bitNum width shardCount).toNat < shardCount.toNat)

/-- The address decoder (R40): a combinational function of its three inputs. For a negative bit number the
coordinates are free values (R46, entry 9). -/
def addressDecoder (bitNum width : Arg) (shardCount : ShardIdx) : DecoderOut :=
  if signed64 bitNum < 0 then
    { shardIdx := decoderShardIdx bitNum width shardCount
      within := Config.negWithin bitNum width shardCount
      byteIdx := Config.negByteIdx bitNum width shardCount
      bitOff := Config.negBitOff bitNum width shardCount
      inRange := decoderInRange bitNum width shardCount }
  else
    { shardIdx := decoderShardIdx bitNum width shardCount
      within := BitVec.ofNat 31 (withinOf (signed64 bitNum).toNat)
      byteIdx := BitVec.ofNat 28 (byteOf (signed64 bitNum).toNat)
      bitOff := BitVec.ofNat 3 (bitOf (signed64 bitNum).toNat)
      inRange := decoderInRange bitNum width shardCount }

/-- The mask of a bit cell, `1 << bitOffset` on 8 bits (R48). -/
def bitMask (k : BitOff) : Byte := 1#8 <<< k.toNat

/-! ## The shape of a vector of width `w` (R24, R91, R94) -/

/-- `N = ceil(w / S)`, computed from the full width (R91). -/
def shardsNeeded (w : Nat) : Nat := ceilDiv w Config.shardBits

/-- `L[i] = ceil(min(S, w - i*S) / 8)`, the bytes shard `i` is allocated (R24). -/
def bytesNeeded (w i : Nat) : Nat := ceilDiv (min Config.shardBits (w - Config.shardBits * i)) 8

/-- `fits(N, L)`: the allocation fits the physical storage (R94). -/
def fits (p : Config.Params) (w : Nat) : Bool :=
  decide (shardsNeeded w ≤ p.maxShards) && (decide (shardsNeeded w = 0) || decide (bytesNeeded w 0 ≤ p.shardMemBytes))

/-- Put `count` shards of length `len` before a table of runs, joining equal neighbours. -/
def pushRun (count : Nat) (len : ShardBytes) (runs : List ShardRun) : List ShardRun :=
  if count = 0 then runs
  else
    match runs with
    | [] => [{ count := count, len := len }]
    | r :: rest => if r.len = len then { count := count + r.count, len := len } :: rest else { count := count, len := len } :: r :: rest

/-- The registers `shardLen` NEW writes (R24, R90): all shards but the last have the length of shard 0, which is the
full one, the last has its own, and every further register is 0. -/
def shardLenTable (w : Nat) : List ShardRun :=
  if shardsNeeded w = 0 then []
  else
    pushRun (shardsNeeded w - 1) (BitVec.ofNat 29 (bytesNeeded w 0))
      (pushRun 1 (BitVec.ofNat 29 (bytesNeeded w (shardsNeeded w - 1))) [])

/-- The register `shardLen[i]` of a table of runs (R24). -/
def shardLenAt : List ShardRun → Nat → ShardBytes
  | [], _ => 0#29
  | r :: rest, i => if i < r.count then r.len else shardLenAt rest (i - r.count)

end Sys2Proof.Machine
end

