-- ==== Sys2Proof/Machine/Flags.lean ====
section
/-! DEFINITION. The block has no flags and no sticky status (R30): what a command reports is its response word, STATUS
and RESULT (R75 to R77), computed here. -/

namespace Sys2Proof.Machine

/-- The 3-bit code of a status (R76); 6 and 7 are no status's code. -/
def statusCode : Status → BitVec 3
  | .ok => 0#3
  | .outOfRange => 1#3
  | .invalidWidth => 2#3
  | .allocFail => 3#3
  | .reservedOp => 4#3
  | .alreadyConstructed => 5#3

/-- The response word `{STATUS, RESULT}` (R75). -/
def responseWord (st : Status) (result : Bool) : ResponseWord := statusCode st ++ BitVec.ofBool result

/-- The status a 3-bit code names; none for the codes 6 and 7, which the block never returns (R76). -/
def statusOfCode (c : BitVec 3) : Option Status :=
  match c.toNat with
  | 0 => some .ok
  | 1 => some .outOfRange
  | 2 => some .invalidWidth
  | 3 => some .allocFail
  | 4 => some .reservedOp
  | 5 => some .alreadyConstructed
  | _ => none

/-- A response word read by the host (R75); none is a mismatch with a device under test (R76, U7). -/
def readResponse (w : ResponseWord) : Option Response :=
  match statusOfCode (w.extractLsb' 1 3) with
  | some st => some { status := st, result := w.getLsbD 0 }
  | none => none

end Sys2Proof.Machine
end

