-- ==== Sys2Proof/Machine/Ops.lean ====
section
/-! DEFINITION. The named operations of the machine: the storage as one canonical memory, the shard mux (R50 to R53),
the response port and the error outcome (R13, R143), the front end of the accessors (R100), and the host's side (R164). -/

namespace Sys2Proof.Machine

/-! ## The storage as a memory of linear byte addresses -/

/-- The linear address of `Shard(i).byte[j]`, `i * 2^28 + j` (entry 6). -/
def byteAddr (i j : Nat) : Nat := Config.shardBytesFull * i + j

/-- What a byte that no cell lists reads as: 0x00 where NEW zeroed it (R53), else its power-on value, which is
unspecified (R34, entry 5). -/
def Memory.unlisted (m : Memory) (a : Nat) : Byte := if a < m.zeroedBelow then 0#8 else Config.powerOnByte m.epoch a

/-- The byte a list of cells gives an address, if it lists it. -/
def lookupCell (a : Nat) : List Host.Cell → Option Byte
  | [] => none
  | c :: cs => if c.1 = a then some c.2 else lookupCell a cs

/-- The list of cells without an address. -/
def eraseCell (a : Nat) (cs : List Host.Cell) : List Host.Cell := cs.filter (fun c => decide (c.1 ≠ a))

/-- The list of cells with a byte at an address, in order of address. -/
def insertCell (a : Nat) (v : Byte) : List Host.Cell → List Host.Cell
  | [] => [(a, v)]
  | c :: cs => if a < c.1 then (a, v) :: c :: cs else if a = c.1 then (a, v) :: cs else c :: insertCell a v cs

/-- The byte at an address. -/
def Memory.read (m : Memory) (a : Nat) : Byte := (lookupCell a m.cells).getD (m.unlisted a)

/-- The memory with a byte written, in canonical form. -/
def Memory.write (m : Memory) (a : Nat) (v : Byte) : Memory :=
  { m with cells := if v = m.unlisted a then eraseCell a m.cells else insertCell a v m.cells }

/-- The memory with 0x00 written to every address below `n` (the bulk path of R53, entry 7). -/
def Memory.zeroBelow (m : Memory) (n : Nat) : Memory :=
  { m with zeroedBelow := max m.zeroedBelow n, cells := m.cells.filter (fun c => decide (n ≤ c.1)) }

/-- The memory after a reset pulse: every byte holds a fresh unspecified value (R34, R160, entry 5). -/
def Memory.scramble (m : Memory) : Memory := { epoch := m.epoch + 1, zeroedBelow := 0, cells := [] }

/-- The canonical form: addresses strictly rising, and no cell equal to what its address reads as unlisted. -/
abbrev Memory.wf (m : Memory) : Prop :=
  m.cells.Pairwise (fun c d => c.1 < d.1) ∧ ∀ c ∈ m.cells, c.2 ≠ m.unlisted c.1

/-! ## The shard mux (R50) -/

/-- What the mux asks of one shard memory: `mem_we`, `mem_addr` and, for a write, `mem_wdata` (R50). -/
inductive ShardAccess where
  | read (addr : ByteIdx)
  | write (addr : ByteIdx) (wdata : Byte)
  deriving DecidableEq, Repr

/-- One access at the mux: the selected shard and what is asked of it (R50). -/
structure MuxAccess where
  shard : ShardIdx
  access : ShardAccess
  deriving DecidableEq, Repr

/-- What shard memory `i` sees of an access: nothing (`mem_en[i] = 0`) unless it is the selected one (R50). -/
def muxPort (x : MuxAccess) (i : Nat) : Option ShardAccess := if i = x.shard.toNat then some x.access else none

/-- The storage after one access at the mux: only a write changes it, and only the addressed byte (R50). -/
def Memory.perform (m : Memory) (x : MuxAccess) : Memory :=
  match x.access with
  | .read _ => m
  | .write j v => m.write (byteAddr x.shard.toNat j.toNat) v

/-- A byte `(i, j)` is allocated (R26). The mux accesses no other byte (R52). -/
abbrev Allocated (s : State) (i j : Nat) : Prop :=
  s.configured = true ∧ i < s.shardCount.toNat ∧ j < (shardLenAt s.shardLen i).toNat

/-- A byte `(i, j)` lies inside physical memory (R25, R32). -/
abbrev ByteExists (p : Config.Params) (i j : Nat) : Prop := i < p.maxShards ∧ j < p.shardMemBytes

/-- `MemRead(i, j)` (R13, R50): a read access, returning `Shard(i).byte[j]`. -/
def memRead (i : ShardIdx) (j : ByteIdx) (s : State) : Except Fault Byte :=
  if ByteExists s.phys i.toNat j.toNat then .ok (s.storage.read (byteAddr i.toNat j.toNat)) else .error (.absentByte i.toNat j.toNat)

/-- The state with other storage. -/
def State.setStorage (s : State) (m : Memory) : State := { s with storage := m }

/-- `MemWrite(i, j, v)` (R13, R50): a write access, after which `Shard(i).byte[j] = v`. -/
def memWrite (i : ShardIdx) (j : ByteIdx) (v : Byte) (s : State) : Except Fault State :=
  if ByteExists s.phys i.toNat j.toNat then
    .ok (s.setStorage (s.storage.perform { shard := i, access := .write j v }))
  else .error (.absentByte i.toNat j.toNat)

/-! ## The response port, and the error outcome -/

/-- `respond(st, r)` (R13): the command ends, its response word goes out on the response port (R70). -/
def State.respond (s : State) (st : Status) (result : Bool) : State :=
  { s with responses := s.responses ++ [responseWord st result] }

/-- `raise E`, the only thing an error does (R13, R143): it is answered with RESULT 0, nothing is saved, no register
and no byte changes. There is no return from it (R149). -/
def raiseError (st : Status) (s : State) : State := s.respond st false

/-- The answer to a word with a reserved `OP` (R74, R145), first of all errors (R147). -/
def rejectWord (e : DecodeError) (s : State) : State :=
  match e with
  | .reservedOp _ => raiseError .reservedOp s

/-! ## The common front end of the accessors (R100) -/

/-- What `ACCESS(ARG)` comes to (R100): the bit number is refused, or it addresses bit `k` of the byte `(i, j)`, which
holds `old`. -/
inductive FrontEnd where
  | outOfRange
  | stopped (f : Fault)
  | hit (i : ShardIdx) (j : ByteIdx) (k : BitOff) (old : Byte)
  deriving DecidableEq, Repr

/-- `ACCESS(ARG)` (R100): the range check of the decoder (R43), then the guard of the mux (R52), then the read. -/
def frontEnd (arg : Arg) (s : State) : FrontEnd :=
  let d := addressDecoder arg s.width s.shardCount
  if d.inRange = false then .outOfRange
  else if ¬ Allocated s d.shardIdx.toNat d.byteIdx.toNat then .outOfRange
  else
    match memRead d.shardIdx d.byteIdx s with
    | .error f => .stopped f
    | .ok old => .hit d.shardIdx d.byteIdx d.bitOff old

/-! ## The host's side -/

/-- The next thing the host sends, and the state without it: the block takes its inputs one at a time, in order
(R29, R60). -/
def takeInput (s : State) : Option (HostInput × State) :=
  match s.inputs with
  | [] => none
  | x :: rest => some (x, { s with inputs := rest })

/-- A reset pulse (R160): every register goes to its reset value and the storage to unspecified values (R34). What the
host still sends and what it has already got back are not the block's state (entry 10). -/
def resetBlock (s : State) : State :=
  { State.resetWith s.phys with storage := s.storage.scramble, inputs := s.inputs, responses := s.responses }

/-- A reset pulse while a command is performed (R161): the command is abandoned, without a response, and the state is
the reset state whatever part of it had been done. -/
def resetAbandoning (_abandoned : CommandWord) (s : State) : State := resetBlock s

/-- A command word placed at the head of the command port, so that it is the next one taken (entry 1). -/
def presentWord (w : CommandWord) (s : State) : State := { s with inputs := .command w :: s.inputs }

end Sys2Proof.Machine
end

