-- ==== Sys2Proof/Machine/BitOps.lean ====
section
/-! DEFINITION. The four accessors SET, CLEAR, TEST and FLIP (R100 to R135). -/

namespace Sys2Proof.Machine

/-- SET on a byte: OR, never AND (R101, R102). -/
def setByte (old m : Byte) : Byte := old ||| m

/-- CLEAR on a byte, the complement taken on 8 bits (R106). -/
def clearByte (old m : Byte) : Byte := old &&& ~~~m

/-- FLIP on a byte (R116). -/
def flipByte (old m : Byte) : Byte := old ^^^ m

/-- An accessor that rewrites the addressed byte (R51, R131): the front end, one write of the byte it read, `OK`. -/
def modifyBit (f : Byte → Byte → Byte) (arg : Arg) (s : State) : Result :=
  match frontEnd arg s with
  | .outOfRange => .next (raiseError .outOfRange s)
  | .stopped e => .fault e
  | .hit i j k old =>
    match memWrite i j (f old (bitMask k)) s with
    | .error e => .fault e
    | .ok t => .next (t.respond .ok false)

/-- The bit `(old >> k) & 1` that TEST returns (R111). -/
def testedBit (old : Byte) (k : BitOff) : Bool := decide ((old >>> k.toNat) &&& 1#8 = 1#8)

/-- An accessor that only reads: the front end, then the addressed bit as RESULT (R111). -/
def readBit (arg : Arg) (s : State) : Result :=
  match frontEnd arg s with
  | .outOfRange => .next (raiseError .outOfRange s)
  | .stopped e => .fault e
  | .hit _ _ k old => .next (s.respond .ok (testedBit old k))

/-- SET (R101). -/
def execSet (arg : Arg) (s : State) : Result := modifyBit setByte arg s

/-- CLEAR (R106). -/
def execClear (arg : Arg) (s : State) : Result := modifyBit clearByte arg s

/-- TEST (R111). -/
def execTest (arg : Arg) (s : State) : Result := readBit arg s

/-- FLIP (R116). -/
def execFlip (arg : Arg) (s : State) : Result := modifyBit flipByte arg s

/-! ## What the accessors do at the mux (R51) -/

/-- The accesses of a rewriting accessor: one read, then one write of the same byte; none out of range (R51). -/
def rewriteAccesses (f : Byte → Byte → Byte) (arg : Arg) (s : State) : List MuxAccess :=
  match frontEnd arg s with
  | .hit i j k old => [{ shard := i, access := .read j }, { shard := i, access := .write j (f old (bitMask k)) }]
  | .outOfRange => []
  | .stopped _ => []

/-- The accesses of TEST: one read (R51). -/
def readAccesses (arg : Arg) (s : State) : List MuxAccess :=
  match frontEnd arg s with
  | .hit i j _ _ => [{ shard := i, access := .read j }]
  | .outOfRange => []
  | .stopped _ => []

/-- The accesses an accessor makes at the mux, in order (R51). NEW's zeroing takes the bulk path (R53, entry 7). -/
def muxAccesses (i : Instr) (s : State) : List MuxAccess :=
  match i with
  | .new _ => []
  | .set b => rewriteAccesses setByte b s
  | .clear b => rewriteAccesses clearByte b s
  | .test b => readAccesses b s
  | .flip b => rewriteAccesses flipByte b s

end Sys2Proof.Machine
end

