-- ==== Sys2Proof/Machine/Construct.lean ====
section
/-! DEFINITION. The construction command NEW (R90 to R99). -/

namespace Sys2Proof.Machine

/-- One past the linear address of the last byte a vector of width `w` is allocated: the bytes `(i, j)` with `i < N` and
`j < L[i]` are exactly those below it, since all shards but the last are full (R24, entry 7). -/
def allocEnd (w : Nat) : Nat :=
  if shardsNeeded w = 0 then 0
  else Config.shardBytesFull * (shardsNeeded w - 1) + bytesNeeded w (shardsNeeded w - 1)

/-- What a successful NEW writes, in one step (R93): every control register, and 0x00 into every allocated byte (R53). -/
def construct (w : Nat) (s : State) : State :=
  { s with
    configured := true
    width := BitVec.ofNat 64 w
    shardCount := BitVec.ofNat 33 (shardsNeeded w)
    shardLen := shardLenTable w
    storage := s.storage.zeroBelow (allocEnd w) }

/-- NEW (R90): its errors in the order of R147, each without a state change (R97); else the construction. -/
def execNew (arg : Arg) (s : State) : Result :=
  if s.configured = true then .next (raiseError .alreadyConstructed s)
  else if signed64 arg < 0 then .next (raiseError .invalidWidth s)
  else if fits s.phys (signed64 arg).toNat = false then .next (raiseError .allocFail s)
  else .next ((construct (signed64 arg).toNat s).respond .ok false)

end Sys2Proof.Machine
end

