-- ==== Sys2Proof/Machine/Dispatch.lean ====
section
/-! DEFINITION. The meaning of every command: one arm per row of spec/opcode_table.json. -/

namespace Sys2Proof.Machine

/-- The effect of one command on the state, its response included (R73). -/
def exec (i : Instr) (s : State) : Host.Outcome State Fault Refusal :=
  match i with
  | .new w => Sys2Proof.Machine.execNew w s
  | .set b => Sys2Proof.Machine.execSet b s
  | .clear b => Sys2Proof.Machine.execClear b s
  | .test b => Sys2Proof.Machine.execTest b s
  | .flip b => Sys2Proof.Machine.execFlip b s

end Sys2Proof.Machine
end

