-- ==== Sys2Proof/Machine/Step.lean ====
section
/-! DEFINITION. One step of the block: it takes what the host sends next and performs it (R60). -/

namespace Sys2Proof.Machine

/-- One step: the next command is decoded and performed, a reserved word is answered (R145), a reset pulse resets
(R160, R161). With nothing sent the block is idle with all state held (R156, entry 3). -/
def step (s : State) : Host.Outcome State Fault Refusal :=
  match takeInput s with
  | none => .next s
  | some (.reset, t) => .next (resetBlock t)
  | some (.resetDuring w, t) => .next (resetAbandoning w t)
  | some (.command w, t) =>
    match decode w with
    | .ok i => exec i t
    | .error e => .next (rejectWord e t)

/-- The state in which the command with the bits `w` is the next one the block takes: the host sends it (R29,
entry 1). A number with a bit above bit 67 is no command word (R71), and then nothing is sent. -/
def State.withFetchWord (s : State) (_nbits w : Nat) : State :=
  match wordOfBits w with
  | none => s
  | some c => presentWord c s

end Sys2Proof.Machine
end

