-- ==== Sys2Proof/Machine/Assembler.lean ====
section
/-! DEFINITION. The assembly syntax of the commands (R79): from the characters of one line to a command word. What the
rule leaves to the reader (spaces, other characters, precedence, digit groups) is DESIGN CHOICE, in entry 17. -/

namespace Sys2Proof.Machine

/-- A lexical piece of a line. -/
inductive AsmToken where
  | name (letters : List Char)
  | plus
  | minus
  | star
  | comma
  | bad
  deriving DecidableEq, Repr

/-- A character of a mnemonic, the symbol `S` or a literal. -/
def isNameChar (c : Char) : Bool := c.isAlphanum || c == '_'

/-- The name read so far (its letters in reverse), put before the tokens that follow it. -/
def flushName (acc : List Char) (rest : List AsmToken) : List AsmToken :=
  if acc.isEmpty then rest else .name acc.reverse :: rest

/-- The tokens of a line; `;` starts a comment (R79). A character that R79 does not use is a bad token. DESIGN CHOICE
(entry 17): so is a parenthesis, and the API spelling `set(3)`, which R79 calls the same command as `SET 3`, is no
assembly text and has no word. -/
def tokens : List Char → List Char → List AsmToken
  | acc, [] => flushName acc []
  | acc, c :: cs =>
    if isNameChar c then tokens (c :: acc) cs
    else if c = ';' then flushName acc []
    else if c = ' ' ∨ c = '\t' ∨ c = '\r' then flushName acc (tokens [] cs)
    else if c = '+' then flushName acc (.plus :: tokens [] cs)
    else if c = '-' then flushName acc (.minus :: tokens [] cs)
    else if c = '*' then flushName acc (.star :: tokens [] cs)
    else if c = ',' then flushName acc (.comma :: tokens [] cs)
    else flushName acc (.bad :: tokens [] cs)

/-- The value of a digit in either case, if it is one below 16. -/
def digitValue (c : Char) : Option Nat :=
  let n := c.toNat
  if 48 ≤ n ∧ n ≤ 57 then some (n - 48)
  else if 97 ≤ n ∧ n ≤ 102 then some (n - 87)
  else if 65 ≤ n ∧ n ≤ 70 then some (n - 55)
  else none

/-- Digits in a base, after the value read so far; `_` groups digits (R11). DESIGN CHOICE (entry 17): wherever `_` stands
after the first digit it is skipped, doubled (`1__0`) or at the end (`10_`) too. -/
def digits (base : Nat) : Nat → List Char → Option Nat
  | v, [] => some v
  | v, c :: cs =>
    if c = '_' then digits base v cs
    else
      match digitValue c with
      | some d => if d < base then digits base (v * base + d) cs else none
      | none => none

/-- The value of a literal, decimal or after `0x` hexadecimal, or of the symbol `S` (R79). DESIGN CHOICE
(entry 17): a literal begins with a digit, and a digit follows `0x`. -/
def literalValue : List Char → Option Nat
  | ['S'] => some Config.shardBits
  | '0' :: 'x' :: c :: cs => if c = '_' then none else digits 16 0 (c :: cs)
  | c :: cs => if c = '_' then none else digits 10 0 (c :: cs)
  | [] => none

/-- The value of an operand expression: literals and `S` with `+`, `-` and `*`, evaluated as integers (R79). `total` is
the sum of the terms before this one, `prod` this term so far, `pending` whether a factor is still to come, `signed`
whether a minus sign stands before it. `*` binds before `+` and `-` (entry 17). -/
def expression : (total prod : Int) → (pending signed : Bool) → List AsmToken → Option Int
  | total, prod, pending, _, [] => if pending then none else some (total + prod)
  | total, prod, pending, signed, t :: ts =>
    if pending then
      match t with
      | .minus => if signed then none else expression total prod true true ts
      | .name cs =>
        match literalValue cs with
        | some v => expression total (prod * (if signed then -(v : Int) else (v : Int))) false false ts
        | none => none
      | .plus => none
      | .star => none
      | .comma => none
      | .bad => none
    else
      match t with
      | .plus => expression (total + prod) 1 true false ts
      | .minus => expression (total + prod) (-1) true false ts
      | .star => expression total prod true false ts
      | .name _ => none
      | .comma => none
      | .bad => none

/-- The value of a whole operand. -/
def operandValue (ts : List AsmToken) : Option Int := expression 0 1 true false ts

/-- The two operands of RAW: what stands before the first comma and what stands after it. -/
def splitComma : List AsmToken → Option (List AsmToken × List AsmToken)
  | [] => none
  | .comma :: ts => some ([], ts)
  | t :: ts =>
    match splitComma ts with
    | some (l, r) => some (t :: l, r)
    | none => none

/-- A one-operand line from its operand's tokens. -/
def lineOf (f : Int → AsmLine) (ts : List AsmToken) : Option AsmLine :=
  match operandValue ts with
  | some v => some (f v)
  | none => none

/-- The operands of RAW (R79). -/
def rawLine (ts : List AsmToken) : Option AsmLine :=
  match splitComma ts with
  | some (l, r) =>
    match operandValue l, operandValue r with
    | some op, some arg => some (.raw op arg)
    | _, _ => none
  | none => none

/-- The line a mnemonic and its operands stand for; mnemonics are case insensitive (R79). -/
def parseTokens : List AsmToken → Option AsmLine
  | .name m :: ts =>
    if m.map Char.toUpper = ['N', 'E', 'W'] then lineOf .new ts
    else if m.map Char.toUpper = ['S', 'E', 'T'] then lineOf .set ts
    else if m.map Char.toUpper = ['C', 'L', 'E', 'A', 'R'] then lineOf .clear ts
    else if m.map Char.toUpper = ['T', 'E', 'S', 'T'] then lineOf .test ts
    else if m.map Char.toUpper = ['F', 'L', 'I', 'P'] then lineOf .flip ts
    else if m.map Char.toUpper = ['R', 'A', 'W'] then rawLine ts
    else none
  | _ => none

/-- One line of assembly text, if it is a command or a RAW directive. -/
def parseLine (text : List Char) : Option AsmLine := parseTokens (tokens [] text)

/-- The `ARG` of an operand value: `v` if `v >= 0`, else `v + 2^64` (R79). -/
def argOfOperand (v : Int) : Arg := BitVec.ofNat 64 (if 0 ≤ v then v else v + 18446744073709551616).toNat

/-- The word of a line, operands in range or not; `assemble` asks whether they are. -/
def lineWord : AsmLine → CommandWord
  | .new w => encode (.new (argOfOperand w))
  | .set b => encode (.set (argOfOperand b))
  | .clear b => encode (.clear (argOfOperand b))
  | .test b => encode (.test (argOfOperand b))
  | .flip b => encode (.flip (argOfOperand b))
  | .raw op arg => BitVec.ofNat 4 op.toNat ++ argOfOperand arg

/-- The word a line is encoded as; none when an operand is out of range (R79). -/
def assemble (l : AsmLine) : Option CommandWord := if l.wf then some (lineWord l) else none

/-- From the text of a line to its word (R79, R81). -/
def assembleText (text : List Char) : Option CommandWord :=
  match parseLine text with
  | some l => assemble l
  | none => none

end Sys2Proof.Machine
end

