-- ==== Sys2Proof/Safety.lean ====
section
/-! DEFINITION. What claims about the machine speak of: the bytes and bits of the vector (R25, R27), the invariant of
every reachable state (R35), and the flat bit vector that the sharded one stands for (R60). -/

namespace Sys2Proof.Machine

/-! ## Bytes and bits -/

/-- `Shard(i).byte[j]` (R25). -/
def byteAt (s : State) (i j : Nat) : Byte := s.storage.read (byteAddr i j)

/-- The bit number whose cell is bit `k` of `Shard(i).byte[j]` (R25). -/
def bitNumber (i j k : Nat) : Nat := Config.shardBits * i + 8 * j + k

/-- The cell of bit number `b`: bit `bitOffset` of the byte the decoder gives (R25, R41). -/
def bitAt (s : State) (b : Nat) : Bool := (byteAt s (shardOf b) (byteOf b)).getLsbD (bitOf b)

/-- Bit `k` of a byte `(i, j)` of a vector of width `w` is a padding bit (R27). -/
abbrev IsPadding (w i j k : Nat) : Prop := Config.shardBits ≤ 8 * j + k ∨ w ≤ bitNumber i j k

/-- The bit number of an accessor lies in `[0, width)` (R32, R43). -/
abbrev InWidth (s : State) (arg : Arg) : Prop := 0 ≤ signed64 arg ∧ signed64 arg < (s.width.toNat : Int)

/-- SET, CLEAR, TEST or FLIP of the bit number `b` (R14). -/
inductive IsAccessor : Instr → Arg → Prop where
  | set (b : Arg) : IsAccessor (.set b) b
  | clear (b : Arg) : IsAccessor (.clear b) b
  | test (b : Arg) : IsAccessor (.test b) b
  | flip (b : Arg) : IsAccessor (.flip b) b

/-- The words the response port can carry: 0x0 to OK with 0, 0x1 OK with 1, and one word for each error (R76, R77). -/
def legalResponses : List ResponseWord := [0x0#4, 0x1#4, 0x2#4, 0x4#4, 0x6#4, 0x8#4, 0xA#4]

/-! ## The invariant -/

/-- No padding bit of a listed byte is 1 (R27). -/
abbrev PaddingClear (w : Nat) (c : Host.Cell) : Prop :=
  ∀ k < 8, IsPadding w (c.1 / Config.shardBytesFull) (c.1 % Config.shardBytesFull) k → c.2.getLsbD k = false

/-- What every state reachable from reset satisfies (R35), and with it what the representation keeps: the memory is
canonical, only allocated bytes are ever listed (R26), and the bytes NEW zeroed are the allocated ones (R53). -/
structure Inv (s : State) : Prop where
  /-- The parameters are legal (R8). -/
  phys_legal : s.phys.legal
  /-- An unconfigured block has width 0 (R35 item 1). -/
  unconfigured_width : s.configured = false → s.width = 0#64
  /-- Bit 63 of the width is 0 (R35 item 5). -/
  width_lt : s.width.toNat < 9223372036854775808
  /-- `shardCount = ceil(width / S)` (R35 item 2). -/
  shardCount_eq : s.shardCount.toNat = shardsNeeded s.width.toNat
  /-- `shardLen` is given by R24 (R35 item 3). -/
  shardLen_eq : s.shardLen = shardLenTable s.width.toNat
  /-- The allocation fits the physical storage (R35 items 2 and 3). -/
  fits_phys : fits s.phys s.width.toNat = true
  /-- Exactly the allocated bytes have been zeroed (R53). -/
  zeroed_eq : s.storage.zeroedBelow = allocEnd s.width.toNat
  /-- The memory has its canonical form. -/
  storage_wf : s.storage.wf
  /-- Only allocated bytes have been written (R26). -/
  cells_allocated : ∀ c ∈ s.storage.cells, c.1 < allocEnd s.width.toNat
  /-- Every padding bit is 0 (R35 item 4). -/
  padding_clear : ∀ c ∈ s.storage.cells, PaddingClear s.width.toNat c
  /-- Only the response words of R76 and R77 have been returned. -/
  responses_legal : ∀ r ∈ s.responses, r ∈ legalResponses

/-! ## What a command leaves as it was -/

/-- No control register (R31) and no parameter (R8) differs. -/
structure SameRegisters (s t : State) : Prop where
  phys_eq : t.phys = s.phys
  configured_eq : t.configured = s.configured
  width_eq : t.width = s.width
  shardCount_eq : t.shardCount = s.shardCount
  shardLen_eq : t.shardLen = s.shardLen

/-- From `s` to `t` nothing differs but the byte the bit number `b` decodes to, and one more response word `r` (R131):
every register, the command port and every byte of the storage outside that one are as they were. -/
structure OnlyAddressedByte (s t : State) (b : Arg) (r : ResponseWord) : Prop where
  registers : SameRegisters s t
  inputs_eq : t.inputs = s.inputs
  responses_eq : t.responses = s.responses ++ [r]
  bytes_eq : ∀ a, a ≠ byteAddr (shardOf b.toNat) (byteOf b.toNat) → t.storage.read a = s.storage.read a

/-! ## The flat bit vector -/

/-- The vector as the source's API speaks of it: a width and one bit per bit number, no shards (R1, R60). -/
structure FlatVector where
  configured : Bool
  width : Nat
  bits : Nat → Bool

/-- The flat vector of an unconfigured block. -/
def FlatVector.empty : FlatVector := { configured := false, width := 0, bits := fun _ => false }

/-- NEW on the flat vector: its errors in their order, or a vector of zeros (R90, R147). -/
def flatNew (p : Config.Params) (w : Int) (v : FlatVector) : FlatVector × Response :=
  if v.configured = true then (v, { status := .alreadyConstructed, result := false })
  else if w < 0 then (v, { status := .invalidWidth, result := false })
  else if p.maxShards < ceilDiv w.toNat Config.shardBits ∨ p.shardMemBytes < ceilDiv (min Config.shardBits w.toNat) 8 then
    (v, { status := .allocFail, result := false })
  else ({ configured := true, width := w.toNat, bits := fun _ => false }, { status := .ok, result := false })

/-- SET, CLEAR or FLIP on the flat vector: one bit becomes `f` of what it was (R132). -/
def flatModify (f : Bool → Bool) (b : Int) (v : FlatVector) : FlatVector × Response :=
  if 0 ≤ b ∧ b < (v.width : Int) then
    ({ v with bits := fun x => if x = b.toNat then f (v.bits x) else v.bits x }, { status := .ok, result := false })
  else (v, { status := .outOfRange, result := false })

/-- TEST on the flat vector (R132). -/
def flatTest (b : Int) (v : FlatVector) : FlatVector × Response :=
  if 0 ≤ b ∧ b < (v.width : Int) then (v, { status := .ok, result := v.bits b.toNat })
  else (v, { status := .outOfRange, result := false })

/-- One command word on the flat vector. -/
def flatCommand (p : Config.Params) (w : CommandWord) (v : FlatVector) : FlatVector × Response :=
  match decode w with
  | .ok (.new a) => flatNew p (signed64 a) v
  | .ok (.set a) => flatModify (fun _ => true) (signed64 a) v
  | .ok (.clear a) => flatModify (fun _ => false) (signed64 a) v
  | .ok (.test a) => flatTest (signed64 a) v
  | .ok (.flip a) => flatModify (fun x => !x) (signed64 a) v
  | .error _ => (v, { status := .reservedOp, result := false })

/-- A sequence of command words on the flat vector: the vector it leaves, and the responses in command order (R60). -/
def flatRun (p : Config.Params) : List CommandWord → FlatVector → FlatVector × List ResponseWord
  | [], v => (v, [])
  | w :: ws, v =>
    let one := flatCommand p w v
    let more := flatRun p ws one.1
    (more.1, responseWord one.2.status one.2.result :: more.2)

/-- The block's state stands for a flat vector: they agree on construction, width and every valid bit (R25). -/
structure StandsFor (s : State) (v : FlatVector) : Prop where
  configured_eq : v.configured = s.configured
  width_eq : v.width = s.width.toNat
  bits_eq : ∀ b < s.width.toNat, v.bits b = bitAt s b

/-! ## States that differ only in bytes no command may observe -/

/-- Two states with the same registers, parameters and ports, and the same allocated bytes; unallocated bytes may differ
(R33). -/
structure SameButUnallocated (s t : State) : Prop where
  phys_eq : t.phys = s.phys
  configured_eq : t.configured = s.configured
  width_eq : t.width = s.width
  shardCount_eq : t.shardCount = s.shardCount
  shardLen_eq : t.shardLen = s.shardLen
  inputs_eq : t.inputs = s.inputs
  responses_eq : t.responses = s.responses
  bytes_eq : ∀ i j, j < Config.shardBytesFull → Allocated s i j → byteAt t i j = byteAt s i j

end Sys2Proof.Machine
end

