-- ==== Sys2Proof/Certificates/Slice0/Obligations.lean ====
section
/-! DEFINITION. The statements for the provers, from the numbered rules of the spec. -/

open Sys2Proof Sys2Proof.Machine

/-! ## Reset and the invariant -/

/-- R34: after reset, for any storage parameters, `configured`, `width`, `shardCount` and every `shardLen[i]` are 0, and
no byte is allocated. -/
def Obligations.ResetClearsEveryRegister : Prop :=
  ∀ p : Config.Params,
    (State.resetWith p).configured = false ∧ (State.resetWith p).width = 0#64 ∧ (State.resetWith p).shardCount = 0#33 ∧
    (∀ i, shardLenAt (State.resetWith p).shardLen i = 0#29) ∧ ∀ i j, ¬ Allocated (State.resetWith p) i j

/-- The reset state meets the invariant, for every legal storage parameters (R8, R35) and so for the parameters of
`State.reset`, which are the model's choice (entry 4). -/
def Obligations.ResetMeetsTheInvariant : Prop :=
  (∀ p : Config.Params, p.legal → Inv (State.resetWith p)) ∧ Inv State.reset

/-- The invariant is kept by every step: every command, every reserved word, every reset pulse (R35). -/
def Obligations.EveryStepKeepsTheInvariant : Prop :=
  ∀ s t : State, Inv s → step s = .next t → Inv t

/-- R35, its five items in its own words, for every state reached from reset by any sequence of inputs. -/
def Obligations.ReachableStatesSatisfyRuleR35 : Prop :=
  ∀ (p : Config.Params) (ins : List HostInput) (n : Nat) (s : State), p.legal →
    Host.Core.run Sys2Proof.core n ({ State.resetWith p with inputs := ins } : State) = .next s →
    (s.configured = false → s.width = 0#64 ∧ s.shardCount = 0#33 ∧ ∀ i, shardLenAt s.shardLen i = 0#29) ∧
    (s.shardCount.toNat = ceilDiv s.width.toNat 2147483647 ∧ s.shardCount.toNat ≤ s.phys.maxShards) ∧
    (∀ i, (shardLenAt s.shardLen i).toNat =
        (if i < s.shardCount.toNat then ceilDiv (min 2147483647 (s.width.toNat - 2147483647 * i)) 8 else 0) ∧
      (shardLenAt s.shardLen i).toNat ≤ s.phys.shardMemBytes) ∧
    (∀ i j k, Allocated s i j → k < 8 → IsPadding s.width.toNat i j k → (byteAt s i j).getLsbD k = false) ∧
    (0 ≤ signed64 s.width ∧ signed64 s.width ≤ 9223372036854775807)

/-- A reset pulse puts every register to its reset value and leaves no byte allocated (R160); a command in progress is
abandoned and returns no response (R161). The step takes the pulse off the port and the abandoned command with it, so
neither is performed later; that what stands behind them stays to be performed is the model's choice (entry 10), and so
is that the storage parameters stand in the state, where the pulse leaves them as they were (entry 4). -/
def Obligations.ResetPulseAbandonsAndClears : Prop :=
  ∀ (s : State) (x : HostInput) (rest : List HostInput),
    s.inputs = x :: rest → (x = .reset ∨ ∃ w, x = .resetDuring w) →
    ∃ t, step s = .next t ∧ t.configured = false ∧ t.width = 0#64 ∧ t.shardCount = 0#33 ∧
      (∀ i, shardLenAt t.shardLen i = 0#29) ∧ (∀ i j, ¬ Allocated t i j) ∧ t.responses = s.responses ∧
      t.inputs = rest ∧ t.phys = s.phys

/-! ## The command stream -/

/-- A step takes the next command word off the port and runs the command it decodes to. -/
def Obligations.StepRunsTheDecodedCommand : Prop :=
  ∀ (s : State) (w : CommandWord) (rest : List HostInput) (i : Instr),
    s.inputs = .command w :: rest → decode w = .ok i → i.wf = true → step s = exec i { s with inputs := rest }

/-- With nothing sent, the block holds all its state (R156; that a step is then idle is the model's reading, entry 3). -/
def Obligations.IdleStepHoldsAllState : Prop :=
  ∀ s : State, s.inputs = [] → step s = .next s

/-- R74 and R145: a word whose `OP` is 0x0 or 0x6 to 0xF changes no state and is answered `RESERVED_OP` with RESULT 0, in
every state and whatever `ARG` holds. -/
def Obligations.ReservedWordAnswersReservedOp : Prop :=
  ∀ (s : State) (op : Opcode) (arg : Arg) (rest : List HostInput),
    s.inputs = .command (op ++ arg) :: rest → (op = 0x0#4 ∨ 6 ≤ op.toNat) →
    step s = .next { s with inputs := rest, responses := s.responses ++ [0x8#4] }

/-- R140 and R77: every command returns exactly one response; every code but `OK` means it changed no state; RESULT is 1
only for a TEST that answers `OK` and reads the bit as 1. -/
def Obligations.EveryCommandReturnsOneResponse : Prop :=
  ∀ (s : State) (w : CommandWord) (rest : List HostInput), Inv s → s.inputs = .command w :: rest →
    ∃ (t : State) (st : Status) (r : Bool), step s = .next t ∧ t.responses = s.responses ++ [responseWord st r] ∧
      t.inputs = rest ∧
      (st ≠ .ok → t = { s with inputs := rest, responses := s.responses ++ [responseWord st false] }) ∧
      (r = true ↔ ∃ b, decode w = .ok (.test b) ∧ st = .ok ∧ bitAt s b.toNat = true)

/-- Every input the host sends is completed: from a state that meets the invariant, any number of steps runs without a
fault or a refusal (R63, R170). -/
def Obligations.EveryRunCompletes : Prop :=
  ∀ (n : Nat) (s : State), Inv s → ∃ t, Host.Core.run Sys2Proof.core n s = .next t ∧ Inv t

/-- R60: performing a sequence of command words one at a time in the order of acceptance, the sharded block gives the same
responses in the same order as one flat vector of bits, where each TEST returns what the last earlier command that wrote
its bit left in it; and it ends in a state that stands for the same vector. -/
def Obligations.ShardedBlockRefinesFlatBitVector : Prop :=
  ∀ (ws : List CommandWord) (s : State) (v : FlatVector) (rest : List HostInput),
    Inv s → StandsFor s v → s.inputs = ws.map .command ++ rest →
    ∃ t, Host.Core.run Sys2Proof.core ws.length s = .next t ∧ StandsFor t (flatRun s.phys ws v).1 ∧
      t.responses = s.responses ++ (flatRun s.phys ws v).2 ∧ t.inputs = rest

/-- No outcome depends on a byte that is not allocated (R33): two states that differ only in such bytes step to the same
stop, or to two states that differ only in such bytes, whatever the host sends. -/
def Obligations.UnallocatedBytesAreNeverObserved : Prop :=
  ∀ s t : State, SameButUnallocated s t →
    (∃ s' t', step s = .next s' ∧ step t = .next t' ∧ SameButUnallocated s' t') ∨
    (∃ f, step s = .fault f ∧ step t = .fault f)

/-! ## Encoding -/

/-- Decode and encode agree: every command is what its word decodes to, every word that decodes to a command is that
command's word, and exactly the words with a reserved `OP` are rejected, by that `OP` (R71 to R74). -/
def Obligations.DecodeAndEncodeAgree : Prop :=
  (∀ i : Instr, i.wf = true → decode (encode i) = .ok i) ∧
  (∀ (w : CommandWord) (i : Instr), decode w = .ok i → encode i = w) ∧
  ∀ (w : CommandWord) (op : Opcode),
    decode w = .error (.reservedOp op) ↔ opField w = op ∧ (op = 0x0#4 ∨ 6 ≤ op.toNat)

/-- R81: the encoding examples, from the assembly text of each line to its word, and from the five command words to their
commands. -/
def Obligations.EncodingExamplesOfR81 : Prop :=
  assembleText "NEW 10".toList = some 0x1000000000000000A#68 ∧
  assembleText "SET 3".toList = some 0x20000000000000003#68 ∧
  assembleText "CLEAR 0".toList = some 0x30000000000000000#68 ∧
  assembleText "TEST S".toList = some 0x4000000007FFFFFFF#68 ∧
  assembleText "FLIP 0x7FFF_FFFF_FFFF_FFFF".toList = some 0x57FFFFFFFFFFFFFFF#68 ∧
  assembleText "TEST -1".toList = some 0x4FFFFFFFFFFFFFFFF#68 ∧
  assembleText "RAW 0, 0".toList = some 0x00000000000000000#68 ∧
  decode 0x1000000000000000A#68 = .ok (.new 10#64) ∧
  decode 0x20000000000000003#68 = .ok (.set 3#64) ∧
  decode 0x30000000000000000#68 = .ok (.clear 0#64) ∧
  decode 0x4000000007FFFFFFF#68 = .ok (.test 0x7FFFFFFF#64) ∧
  decode 0x57FFFFFFFFFFFFFFF#68 = .ok (.flip 0x7FFFFFFFFFFFFFFF#64) ∧
  decode 0x4FFFFFFFFFFFFFFFF#68 = .ok (.test 0xFFFFFFFFFFFFFFFF#64) ∧
  decode 0x00000000000000000#68 = .error (.reservedOp 0x0#4)

/-- The assembly lines of R79. An operand `v` in `-2^63 .. 2^64 - 1` has the `ARG` `v`, or `v + 2^64` if it is negative;
below `2^63` `signed64` reads `v` back, and from `2^63` on the `ARG` is that of `v - 2^64`. Each of the six forms of line
has no word exactly when an operand is out of range; else its word holds the `OP` of R79's table, or the `op` of RAW, and
the `ARG` of its operand. -/
def Obligations.AssemblyOperandsEncodeTheirValue : Prop :=
  (∀ v : Int, -9223372036854775808 ≤ v → v < 18446744073709551616 →
    ((argOfOperand v).toNat : Int) = if 0 ≤ v then v else v + 18446744073709551616) ∧
  (∀ v : Int, -9223372036854775808 ≤ v → v < 9223372036854775808 → signed64 (argOfOperand v) = v) ∧
  (∀ v : Int, 9223372036854775808 ≤ v → v < 18446744073709551616 → argOfOperand v = argOfOperand (v - 18446744073709551616)) ∧
  (∀ (v : Int) (l : AsmLine) (op : Opcode),
    (l, op) ∈ [(AsmLine.new v, 0x1#4), (.set v, 0x2#4), (.clear v, 0x3#4), (.test v, 0x4#4), (.flip v, 0x5#4)] →
    (assemble l = none ↔ v < -9223372036854775808 ∨ 18446744073709551616 ≤ v) ∧
    ∀ w, assemble l = some w → opField w = op ∧ argField w = argOfOperand v) ∧
  ∀ op v : Int,
    (assemble (.raw op v) = none ↔ (op < 0 ∨ 16 ≤ op) ∨ v < -9223372036854775808 ∨ 18446744073709551616 ≤ v) ∧
    ∀ w, assemble (.raw op v) = some w → ((opField w).toNat : Int) = op ∧ argField w = argOfOperand v

/-- R75: a response word is `STATUS * 2 + RESULT`, and the host reads both fields back; the words 0xC to 0xF, whose codes
are 6 and 7, are no response. -/
def Obligations.ResponseWordCarriesStatusAndResult : Prop :=
  (∀ (st : Status) (r : Bool), (responseWord st r).toNat = (statusCode st).toNat * 2 + r.toNat ∧
    readResponse (responseWord st r) = some { status := st, result := r }) ∧
  ∀ w : ResponseWord, readResponse w = none ↔ 12 ≤ w.toNat

/-! ## The address decoder -/

/-- R41: for a bit number that is not negative the decoder's outputs are the quotient and remainders of the addressing
function, none of them truncated; with the corner cases and the worked example of the rule. -/
def Obligations.DecoderFollowsTheAddressingFunction : Prop :=
  (∀ (b width : Arg) (n : ShardIdx), 0 ≤ signed64 b →
    (addressDecoder b width n).shardIdx.toNat = b.toNat / 2147483647 ∧
    (addressDecoder b width n).within.toNat = b.toNat % 2147483647 ∧
    (addressDecoder b width n).byteIdx.toNat = b.toNat % 2147483647 / 8 ∧
    (addressDecoder b width n).bitOff.toNat = b.toNat % 2147483647 % 8 ∧
    (addressDecoder b width n).byteIdx = (addressDecoder b width n).within.extractLsb' 3 28 ∧
    (addressDecoder b width n).bitOff = (addressDecoder b width n).within.extractLsb' 0 3 ∧
    (addressDecoder b width n).shardIdx.toNat ≤ 4294967298 ∧
    (addressDecoder b width n).within.toNat ≤ 2147483646) ∧
  (shardOf 0 = 0 ∧ byteOf 0 = 0 ∧ bitOf 0 = 0) ∧
  (shardOf 2147483647 = 1 ∧ byteOf 2147483647 = 0 ∧ bitOf 2147483647 = 0) ∧
  (shardOf 2147483648 = 1 ∧ byteOf 2147483648 = 0 ∧ bitOf 2147483648 = 1) ∧
  (shardOf 9223372036854775807 = 4294967298 ∧ byteOf 9223372036854775807 = 0 ∧ bitOf 9223372036854775807 = 1)

/-- R44: the decoder is injective, its inverse is `i*S + 8*j + k` exactly where `8*j + k < S`, every bit number below the
width decodes to an allocated byte and to no padding bit, and it is monotone inside a shard. -/
def Obligations.DecoderPropertiesOfR44 : Prop :=
  (∀ b c, shardOf b = shardOf c → byteOf b = byteOf c → bitOf b = bitOf c → b = c) ∧
  (∀ i j k, k < 8 → ((∃ b, shardOf b = i ∧ byteOf b = j ∧ bitOf b = k) ↔ 8 * j + k < 2147483647)) ∧
  (∀ b, b = shardOf b * 2147483647 + 8 * byteOf b + bitOf b) ∧
  (∀ w b, b < w → shardOf b < shardsNeeded w ∧ byteOf b < (shardLenAt (shardLenTable w) (shardOf b)).toNat) ∧
  (∀ w b, b < w → ¬ IsPadding w (shardOf b) (byteOf b) (bitOf b)) ∧
  ∀ b, shardOf (b + 1) = shardOf b →
    (byteOf (b + 1) = byteOf b ∧ bitOf (b + 1) = bitOf b + 1) ∨
    (byteOf (b + 1) = byteOf b + 1 ∧ bitOf b = 7 ∧ bitOf (b + 1) = 0)

/-- R47: `i*S` is bit 0 of byte 0 of shard `i`; `i*S - 1` is bit 6 of the last byte of shard `i - 1`, whose bit 7 is a
padding bit. -/
def Obligations.ShardBoundaries : Prop :=
  ∀ i w, (shardOf (2147483647 * i) = i ∧ byteOf (2147483647 * i) = 0 ∧ bitOf (2147483647 * i) = 0) ∧
    (1 ≤ i → shardOf (2147483647 * i - 1) = i - 1 ∧ byteOf (2147483647 * i - 1) = 268435455 ∧
      bitOf (2147483647 * i - 1) = 6 ∧ IsPadding w (i - 1) 268435455 7)

/-- R43: `in_range` is the conjunction of its three terms; where the invariant holds the third is implied by the second;
an accessor with `in_range = 0` returns `OUT_OF_RANGE`. -/
def Obligations.RangeCheckOfR43 : Prop :=
  (∀ (b width : Arg) (n : ShardIdx), (addressDecoder b width n).inRange = true ↔
    0 ≤ signed64 b ∧ signed64 b < (width.toNat : Int) ∧ (addressDecoder b width n).shardIdx.toNat < n.toNat) ∧
  (∀ (s : State) (b : Arg), Inv s →
    ((addressDecoder b s.width s.shardCount).inRange = true ↔ 0 ≤ signed64 b ∧ signed64 b < signed64 s.width)) ∧
  ∀ (s : State) (i : Instr) (b : Arg), IsAccessor i b → (addressDecoder b s.width s.shardCount).inRange = false →
    exec i s = .next { s with responses := s.responses ++ [0x2#4] }

/-! ## The mux and the storage -/

/-- A successful access at the mux reads or writes the one addressed byte; the selected shard sees the access, its
`mem_we`, `mem_addr` and `mem_wdata`, and every other shard has `mem_en = 0` (R50). -/
def Obligations.MuxReachesOneByte : Prop :=
  (∀ (i : ShardIdx) (j : ByteIdx) (s : State), ByteExists s.phys i.toNat j.toNat →
    memRead i j s = .ok (byteAt s i.toNat j.toNat)) ∧
  (∀ (i : ShardIdx) (j : ByteIdx) (v : Byte) (s : State), ByteExists s.phys i.toNat j.toNat →
    ∃ t, memWrite i j v s = .ok t ∧ byteAt t i.toNat j.toNat = v ∧ SameRegisters s t ∧
      t.inputs = s.inputs ∧ t.responses = s.responses ∧
      ∀ i' j', j' < 268435456 → ¬ (i' = i.toNat ∧ j' = j.toNat) → byteAt t i' j' = byteAt s i' j') ∧
  ∀ x : MuxAccess, muxPort x x.shard.toNat = some x.access ∧ ∀ i : Nat, i ≠ x.shard.toNat → muxPort x i = none

/-- R51: TEST makes one read and no write, SET, CLEAR and FLIP make one read then one write of the same byte, the one the
decoder names; out of range there is no access. What an accessor does to the storage is exactly what these accesses
do, in order. -/
def Obligations.AccessorsTouchOneByteAtTheMux : Prop :=
  ∀ (s : State) (i : Instr) (b : Arg), Inv s → IsAccessor i b →
    (∃ t, exec i s = .next t ∧ t.storage = (muxAccesses i s).foldl Memory.perform s.storage) ∧
    (¬ InWidth s b → muxAccesses i s = []) ∧
    (InWidth s b → ∃ (x : ShardIdx) (y : ByteIdx), x.toNat = shardOf b.toNat ∧ y.toNat = byteOf b.toNat ∧
      ((i = .test b ∧ muxAccesses i s = [{ shard := x, access := .read y }]) ∨
        (i ≠ .test b ∧ ∃ v, muxAccesses i s = [{ shard := x, access := .read y }, { shard := x, access := .write y v }])))

/-- R52: where the invariant holds every in-range access is to an allocated byte, so the guard never refuses it; in any
state in which the byte were not allocated, the accessor would return `OUT_OF_RANGE` with no access. -/
def Obligations.MuxGuardOfR52 : Prop :=
  (∀ (s : State) (b : Arg), Inv s → (addressDecoder b s.width s.shardCount).inRange = true →
    Allocated s (shardOf b.toNat) (byteOf b.toNat)) ∧
  ∀ (s : State) (i : Instr) (b : Arg), IsAccessor i b → 0 ≤ signed64 b →
    ¬ Allocated s (shardOf b.toNat) (byteOf b.toNat) →
    exec i s = .next { s with responses := s.responses ++ [0x2#4] } ∧ muxAccesses i s = []

/-- R26: every allocated byte lies inside physical memory; an accessor accesses only allocated bytes; and a command
leaves every byte as it was that is not allocated after it. -/
def Obligations.OnlyAllocatedBytesAreAccessed : Prop :=
  (∀ (s : State) (i j : Nat), Inv s → Allocated s i j → ByteExists s.phys i j) ∧
  (∀ (s : State) (i : Instr) (x : MuxAccess), x ∈ muxAccesses i s →
    ∃ j : ByteIdx, (x.access = .read j ∨ ∃ v, x.access = .write j v) ∧ Allocated s x.shard.toNat j.toNat) ∧
  ∀ (s t : State) (i : Instr) (x y : Nat), exec i s = .next t → y < 268435456 → ¬ Allocated t x y →
    byteAt t x y = byteAt s x y

/-- Bit `k` of `Shard(i).byte[j]` is the cell of bit number `i*S + 8*j + k` (R25). -/
def Obligations.CellOfEveryBitNumber : Prop :=
  ∀ (s : State) (i j k : Nat), k < 8 → 8 * j + k < 2147483647 →
    bitAt s (2147483647 * i + 8 * j + k) = (byteAt s i j).getLsbD k

/-- R24: the registers `shardLen`: the formula of the rule below `shardCount`, 0 from there on; every shard but the last
has `2^28` bytes and the last between 1 and `2^28`. -/
def Obligations.ShardLengthsOfR24 : Prop :=
  ∀ s : State, Inv s →
    (∀ i, (shardLenAt s.shardLen i).toNat =
      if i < s.shardCount.toNat then ceilDiv (min 2147483647 (s.width.toNat - 2147483647 * i)) 8 else 0) ∧
    (∀ i, i + 1 < s.shardCount.toNat → (shardLenAt s.shardLen i).toNat = 268435456) ∧
    (∀ i, i + 1 = s.shardCount.toNat →
      (shardLenAt s.shardLen i).toNat = ceilDiv (s.width.toNat - 2147483647 * i) 8 ∧
      1 ≤ (shardLenAt s.shardLen i).toNat ∧ (shardLenAt s.shardLen i).toNat ≤ 268435456)

/-! ## NEW -/

/-- R93: a NEW on an unconfigured block whose width is not negative and fits (R94) succeeds, and writes in one step every
control register and 0x00 into every allocated byte, and no other byte. -/
def Obligations.NewConstructsTheVector : Prop :=
  ∀ (s : State) (arg : Arg), s.configured = false → 0 ≤ signed64 arg →
    ceilDiv arg.toNat 2147483647 ≤ s.phys.maxShards →
    (arg.toNat = 0 ∨ ceilDiv (min 2147483647 arg.toNat) 8 ≤ s.phys.shardMemBytes) →
    ∃ t, exec (.new arg) s = .next t ∧ t.configured = true ∧ t.width = arg ∧
      t.shardCount.toNat = ceilDiv arg.toNat 2147483647 ∧
      (∀ i, (shardLenAt t.shardLen i).toNat =
        if i < ceilDiv arg.toNat 2147483647 then ceilDiv (min 2147483647 (arg.toNat - 2147483647 * i)) 8 else 0) ∧
      (∀ i j, j < 268435456 → Allocated t i j → byteAt t i j = 0x00#8) ∧
      (∀ i j, j < 268435456 → ¬ Allocated t i j → byteAt t i j = byteAt s i j) ∧
      t.phys = s.phys ∧ t.inputs = s.inputs ∧ t.responses = s.responses ++ [0x0#4]

/-- R97, R142, R144 and R146: a NEW fails with `ALREADY_CONSTRUCTED` on a configured block, else with `INVALID_WIDTH` for a
negative width, else with `ALLOC_FAIL` when the allocation does not fit, in that order; it then writes no register and
no byte, so that a later NEW is as free to succeed. In every other case it answers `OK`. -/
def Obligations.NewErrorsInOrderChangeNothing : Prop :=
  ∀ (s : State) (arg : Arg),
    (s.configured = true → exec (.new arg) s = .next { s with responses := s.responses ++ [0xA#4] }) ∧
    (s.configured = false → signed64 arg < 0 → exec (.new arg) s = .next { s with responses := s.responses ++ [0x4#4] }) ∧
    (s.configured = false → 0 ≤ signed64 arg → fits s.phys arg.toNat = false →
      exec (.new arg) s = .next { s with responses := s.responses ++ [0x6#4] }) ∧
    (s.configured = false → 0 ≤ signed64 arg → fits s.phys arg.toNat = true →
      ∃ t, exec (.new arg) s = .next t ∧ t.configured = true ∧ t.responses = s.responses ++ [0x0#4])

/-- R92: the shard count of a representable width is at most `2^32 + 3`, reached at `2^63 - 1`, and 0 exactly at 0. -/
def Obligations.ShardCountBoundsOfR92 : Prop :=
  (∀ w, w < 9223372036854775808 → shardsNeeded w ≤ 4294967299) ∧ shardsNeeded 9223372036854775807 = 4294967299 ∧
  (∀ w, shardsNeeded w = 0 ↔ w = 0) ∧ 9223372036854775807 = 2147483647 * 4294967298 + 1

/-- R94: the allocation fits exactly when there are enough memories and every shard fits its own; when it does not, NEW
returns `ALLOC_FAIL` and changes no state; with the largest parameters no width fails. -/
def Obligations.AllocationFitsWhenEveryShardFits : Prop :=
  (∀ (p : Config.Params) (w : Nat), fits p w = true ↔
    shardsNeeded w ≤ p.maxShards ∧ (shardsNeeded w = 0 ∨ bytesNeeded w 0 ≤ p.shardMemBytes)) ∧
  (∀ (p : Config.Params) (w : Nat), fits p w = true ↔
    shardsNeeded w ≤ p.maxShards ∧ ∀ i < shardsNeeded w, bytesNeeded w i ≤ p.shardMemBytes) ∧
  (∀ (s : State) (arg : Arg), s.configured = false → 0 ≤ signed64 arg → fits s.phys arg.toNat = false →
    exec (.new arg) s = .next { s with responses := s.responses ++ [0x6#4] }) ∧
  ∀ w, w < 9223372036854775808 → fits { maxShards := 4294967299, shardMemBytes := 268435456 } w = true

/-- R95: NEW 0 on an unconfigured block succeeds with zero shards and writes no byte; afterwards every accessor is out of
range and a further NEW finds the block constructed. -/
def Obligations.NewZeroHasNoShards : Prop :=
  ∀ s : State, s.configured = false →
    ∃ t, exec (.new 0#64) s = .next t ∧ t.configured = true ∧ t.width = 0#64 ∧ t.shardCount = 0#33 ∧
      (∀ a, t.storage.read a = s.storage.read a) ∧ t.responses = s.responses ++ [0x0#4] ∧
      (∀ i b, IsAccessor i b → exec i t = .next { t with responses := t.responses ++ [0x2#4] }) ∧
      ∀ w, exec (.new w) t = .next { t with responses := t.responses ++ [0xA#4] }

/-- R96 and R125: after a successful NEW every bit number in `[0, width)` tests as 0, with `OK`. -/
def Obligations.AllClearAfterConstruction : Prop :=
  ∀ (s t : State) (w b : Arg), s.configured = false → exec (.new w) s = .next t → t.configured = true →
    0 ≤ signed64 b → signed64 b < signed64 w →
    exec (.test b) t = .next { t with responses := t.responses ++ [0x0#4] }

/-- R36: once configured, no command changes `configured`, `width`, `shardCount` or `shardLen`; a byte changes only through
SET, CLEAR or FLIP, and only the one byte the bit number decodes to. -/
def Obligations.ConstructedShapeNeverChanges : Prop :=
  ∀ (s t : State) (w : CommandWord) (rest : List HostInput),
    s.configured = true → s.inputs = .command w :: rest → step s = .next t →
    SameRegisters s t ∧
    ∀ a, t.storage.read a ≠ s.storage.read a →
      ∃ b, (decode w = .ok (.set b) ∨ decode w = .ok (.clear b) ∨ decode w = .ok (.flip b)) ∧
        a = byteAddr (shardOf b.toNat) (byteOf b.toNat)

/-- R21: an unconfigured block has width 0 and no shards, so every accessor fails its range check; no command clears
`configured`, and only a successful NEW sets it. -/
def Obligations.ConfiguredOnlyByNew : Prop :=
  (∀ (s : State) (i : Instr) (b : Arg), Inv s → s.configured = false → IsAccessor i b →
    s.width = 0#64 ∧ s.shardCount = 0#33 ∧ exec i s = .next { s with responses := s.responses ++ [0x2#4] }) ∧
  ∀ (s t : State) (i : Instr), exec i s = .next t →
    (s.configured = true → t.configured = true) ∧
    (s.configured = false → (t.configured = true ↔ (∃ w, i = .new w) ∧ t.responses = s.responses ++ [0x0#4]))

/-! ## SET, CLEAR, TEST, FLIP -/

/-- R101: SET has `OP` 0x2; in range it ORs the mask into the addressed byte and answers `OK` with 0, nothing else
changing; out of range it answers `OUT_OF_RANGE` and changes nothing; with the rule's worked example. -/
def Obligations.SetOrsTheAddressedBit : Prop :=
  (∀ b : Arg, encode (.set b) = 0x2#4 ++ b) ∧
  (∀ (s : State) (b : Arg), Inv s → InWidth s b →
    ∃ t, exec (.set b) s = .next t ∧ OnlyAddressedByte s t b 0x0#4 ∧
      byteAt t (shardOf b.toNat) (byteOf b.toNat) = byteAt s (shardOf b.toNat) (byteOf b.toNat) ||| 1#8 <<< bitOf b.toNat) ∧
  (∀ (s : State) (b : Arg), ¬ InWidth s b → exec (.set b) s = .next { s with responses := s.responses ++ [0x2#4] }) ∧
  ∀ s : State, Inv s → s.width = 10#64 → byteAt s 0 0 = 0x00#8 → ∃ t, exec (.set 3#64) s = .next t ∧ byteAt t 0 0 = 0x08#8

/-- R106: CLEAR has `OP` 0x3; in range it ANDs the complement of the mask into the addressed byte and answers `OK` with 0,
nothing else changing; out of range it answers `OUT_OF_RANGE` and changes nothing; with the rule's worked example. -/
def Obligations.ClearMasksTheAddressedBit : Prop :=
  (∀ b : Arg, encode (.clear b) = 0x3#4 ++ b) ∧
  (∀ (s : State) (b : Arg), Inv s → InWidth s b →
    ∃ t, exec (.clear b) s = .next t ∧ OnlyAddressedByte s t b 0x0#4 ∧
      byteAt t (shardOf b.toNat) (byteOf b.toNat) =
        byteAt s (shardOf b.toNat) (byteOf b.toNat) &&& (0xFF#8 ^^^ 1#8 <<< bitOf b.toNat)) ∧
  (∀ (s : State) (b : Arg), ¬ InWidth s b → exec (.clear b) s = .next { s with responses := s.responses ++ [0x2#4] }) ∧
  ∀ s : State, Inv s → 0 < s.width.toNat → byteAt s 0 0 = 0b10000001#8 →
    ∃ t, exec (.clear 0#64) s = .next t ∧ byteAt t 0 0 = 0b10000000#8

/-- R111: TEST has `OP` 0x4; in range it answers `OK` with the addressed bit of the byte read, and changes nothing; out of
range it answers `OUT_OF_RANGE` with RESULT 0; with the rule's worked example. -/
def Obligations.TestReturnsTheAddressedBit : Prop :=
  (∀ b : Arg, encode (.test b) = 0x4#4 ++ b) ∧
  (∀ (s : State) (b : Arg), Inv s → InWidth s b →
    exec (.test b) s = .next { s with responses := s.responses ++
      [if (byteAt s (shardOf b.toNat) (byteOf b.toNat) >>> bitOf b.toNat) &&& 1#8 = 1#8 then 0x1#4 else 0x0#4] }) ∧
  (∀ (s : State) (b : Arg), ¬ InWidth s b → exec (.test b) s = .next { s with responses := s.responses ++ [0x2#4] }) ∧
  ∀ s t : State, Inv s → s.width = 10#64 → byteAt s 0 0 = 0x00#8 → exec (.set 3#64) s = .next t →
    exec (.test 3#64) t = .next { t with responses := t.responses ++ [0x1#4] } ∧
    exec (.test 2#64) t = .next { t with responses := t.responses ++ [0x0#4] } ∧
    exec (.test 4#64) t = .next { t with responses := t.responses ++ [0x0#4] }

/-- R116: FLIP has `OP` 0x5; in range it XORs the mask into the addressed byte and answers `OK` with 0, nothing else
changing; out of range it answers `OUT_OF_RANGE` and changes nothing; with the rule's worked example. -/
def Obligations.FlipXorsTheAddressedBit : Prop :=
  (∀ b : Arg, encode (.flip b) = 0x5#4 ++ b) ∧
  (∀ (s : State) (b : Arg), Inv s → InWidth s b →
    ∃ t, exec (.flip b) s = .next t ∧ OnlyAddressedByte s t b 0x0#4 ∧
      byteAt t (shardOf b.toNat) (byteOf b.toNat) = byteAt s (shardOf b.toNat) (byteOf b.toNat) ^^^ 1#8 <<< bitOf b.toNat) ∧
  (∀ (s : State) (b : Arg), ¬ InWidth s b → exec (.flip b) s = .next { s with responses := s.responses ++ [0x2#4] }) ∧
  ∀ s : State, Inv s → 7 < s.width.toNat → byteAt s 0 0 = 0x00#8 →
    ∃ t u, exec (.flip 7#64) s = .next t ∧ byteAt t 0 0 = 0x80#8 ∧ exec (.flip 7#64) t = .next u ∧ byteAt u 0 0 = 0x00#8

/-- R124: an accessor with a negative bit number or one at or above the width returns `OUT_OF_RANGE` and leaves all state
unchanged, in every state. -/
def Obligations.OutOfRangeAccessorChangesNothing : Prop :=
  ∀ (s : State) (i : Instr) (b : Arg), IsAccessor i b → (signed64 b < 0 ∨ (s.width.toNat : Int) ≤ signed64 b) →
    exec i s = .next { s with responses := s.responses ++ [0x2#4] }

/-- R131: a successful SET, CLEAR or FLIP writes one byte and in it changes at most the addressed bit; no register
changes. TEST writes nothing. -/
def Obligations.AccessorFootprint : Prop :=
  ∀ (s : State) (i : Instr) (b : Arg), Inv s → IsAccessor i b → InWidth s b →
    ∃ (t : State) (r : ResponseWord), exec i s = .next t ∧ OnlyAddressedByte s t b r ∧
      (∀ n, n ≠ bitOf b.toNat →
        (byteAt t (shardOf b.toNat) (byteOf b.toNat)).getLsbD n = (byteAt s (shardOf b.toNat) (byteOf b.toNat)).getLsbD n) ∧
      (i = .test b → t.storage = s.storage)

/-- R132: the value of the addressed bit after each accessor, and the RESULT of TEST. -/
def Obligations.TruthTableOfR132 : Prop :=
  ∀ (s : State) (b : Arg), Inv s → InWidth s b →
    (∃ t, exec (.set b) s = .next t ∧ bitAt t b.toNat = true ∧ t.responses = s.responses ++ [0x0#4]) ∧
    (∃ t, exec (.clear b) s = .next t ∧ bitAt t b.toNat = false ∧ t.responses = s.responses ++ [0x0#4]) ∧
    (∃ t, exec (.flip b) s = .next t ∧ bitAt t b.toNat = !bitAt s b.toNat ∧ t.responses = s.responses ++ [0x0#4]) ∧
    (∃ t, exec (.test b) s = .next t ∧ bitAt t b.toNat = bitAt s b.toNat ∧
      t.responses = s.responses ++ [responseWord .ok (bitAt s b.toNat)])

/-- R121: SET then TEST of one valid bit number returns 1; CLEAR then TEST returns 0. -/
def Obligations.SetClearRoundTrip : Prop :=
  ∀ (s : State) (b : Arg), Inv s → InWidth s b →
    (∃ t, exec (.set b) s = .next t ∧ exec (.test b) t = .next { t with responses := t.responses ++ [0x1#4] }) ∧
    (∃ t, exec (.clear b) s = .next t ∧ exec (.test b) t = .next { t with responses := t.responses ++ [0x0#4] })

/-- R122: for two different valid bit numbers, SET, CLEAR or FLIP of the one does not change the result of TEST of the
other. -/
def Obligations.NoCrossBitInterference : Prop :=
  ∀ (s : State) (i : Instr) (b c : Arg), Inv s → IsAccessor i b → InWidth s b → InWidth s c → b ≠ c →
    ∃ t, exec i s = .next t ∧
      exec (.test c) s = .next { s with responses := s.responses ++ [responseWord .ok (bitAt s c.toNat)] } ∧
      exec (.test c) t = .next { t with responses := t.responses ++ [responseWord .ok (bitAt s c.toNat)] }

/-- R123: two FLIPs of one valid bit number leave the bit and the whole state as before; only the two responses have been
returned. -/
def Obligations.DoubleFlipRestoresTheState : Prop :=
  ∀ (s : State) (b : Arg), Inv s → InWidth s b →
    ∃ t, exec (.flip b) s = .next t ∧ exec (.flip b) t = .next { s with responses := s.responses ++ [0x0#4, 0x0#4] }

/-- SET, CLEAR and TEST are idempotent: done twice in a row they give the state and the response of once (R56). -/
def Obligations.SetClearTestAreIdempotent : Prop :=
  ∀ (s : State) (i : Instr) (b : Arg), Inv s → IsAccessor i b → i ≠ .flip b → InWidth s b →
    ∃ (t : State) (r : ResponseWord), exec i s = .next t ∧ t.responses = s.responses ++ [r] ∧
      exec i t = .next { t with responses := t.responses ++ [r] }

/-- R66: two accessors on different bit numbers commute: in either order they leave the same storage and registers, and
each gets the same response. -/
def Obligations.AccessorsOnDifferentBitsCommute : Prop :=
  ∀ (s : State) (i j : Instr) (b c : Arg), Inv s → IsAccessor i b → IsAccessor j c → InWidth s b → InWidth s c → b ≠ c →
    ∃ (t u v w : State) (p q : ResponseWord),
      exec i s = .next t ∧ exec j t = .next u ∧ exec j s = .next v ∧ exec i v = .next w ∧
      u.responses = s.responses ++ [p, q] ∧ w.responses = s.responses ++ [q, p] ∧
      w.storage = u.storage ∧ SameRegisters u w
end

