-- ==== Sys2Proof/Laws/PerInstr.lean ====
section
/-! SUPPORT. The fields of a command word, and the statement made of every command's encoding, one lemma a constructor. -/

namespace Sys2Proof

theorem opField_append (op : Opcode) (a : Arg) : opField (op ++ a) = op := by
  have := op.isLt
  have := a.isLt
  unfold opField
  apply BitVec.eq_of_toNat_eq
  rw [BitVec.extractLsb'_toNat, BitVec.toNat_append, Nat.shiftRight_eq_div_pow, ← Nat.shiftLeft_add_eq_or_of_lt (by omega),
    Nat.shiftLeft_eq]
  omega

theorem argField_append (op : Opcode) (a : Arg) : argField (op ++ a) = a := by
  have := op.isLt
  have := a.isLt
  unfold argField
  apply BitVec.eq_of_toNat_eq
  rw [BitVec.extractLsb'_toNat, BitVec.toNat_append, Nat.shiftRight_eq_div_pow, ← Nat.shiftLeft_add_eq_or_of_lt (by omega),
    Nat.shiftLeft_eq]
  omega

/-- A word is its two fields (R71). -/
theorem append_fields (w : CommandWord) : opField w ++ argField w = w := by
  have := w.isLt
  unfold argField opField
  apply BitVec.eq_of_toNat_eq
  rw [BitVec.toNat_append, BitVec.extractLsb'_toNat, BitVec.extractLsb'_toNat, Nat.shiftRight_eq_div_pow, Nat.shiftRight_eq_div_pow,
    ← Nat.shiftLeft_add_eq_or_of_lt (by omega), Nat.shiftLeft_eq]
  omega

/-- The word of a command carries its `OP`, one of the five of R73, and its whole `ARG` (R71, R72); it is well formed. -/
def Laws.EncodedFields.Statement (i : Instr) : Prop :=
  opField (encode i) = i.opcode ∧ argField (encode i) = i.arg ∧ 1 ≤ i.opcode.toNat ∧ i.opcode.toNat ≤ 5 ∧ i.wf = true

theorem Laws.EncodedFields.new (w : Arg) : Laws.EncodedFields.Statement (.new w) :=
  ⟨opField_append _ _, argField_append _ _, by simp [Instr.opcode], by simp [Instr.opcode], rfl⟩

theorem Laws.EncodedFields.set (b : Arg) : Laws.EncodedFields.Statement (.set b) :=
  ⟨opField_append _ _, argField_append _ _, by simp [Instr.opcode], by simp [Instr.opcode], rfl⟩

theorem Laws.EncodedFields.clear (b : Arg) : Laws.EncodedFields.Statement (.clear b) :=
  ⟨opField_append _ _, argField_append _ _, by simp [Instr.opcode], by simp [Instr.opcode], rfl⟩

theorem Laws.EncodedFields.test (b : Arg) : Laws.EncodedFields.Statement (.test b) :=
  ⟨opField_append _ _, argField_append _ _, by simp [Instr.opcode], by simp [Instr.opcode], rfl⟩

theorem Laws.EncodedFields.flip (b : Arg) : Laws.EncodedFields.Statement (.flip b) :=
  ⟨opField_append _ _, argField_append _ _, by simp [Instr.opcode], by simp [Instr.opcode], rfl⟩

end Sys2Proof
end

