-- ==== Sys2Proof/Laws/Assembler.lean ====
section
/-! SUPPORT. The assembly lines (R79): when an operand is in range, when a line has a word, and the fields of its word. -/

namespace Sys2Proof.Machine

theorem operandFits_iff {v : Int} : operandFits v = true ↔ -9223372036854775808 ≤ v ∧ v < 18446744073709551616 := by
  simp [operandFits]

theorem opFits_iff {v : Int} : opFits v = true ↔ 0 ≤ v ∧ v < 16 := by
  simp [opFits]

/-- A line has no word exactly when an operand is out of range (R79). -/
theorem assemble_eq_none {l : AsmLine} : assemble l = none ↔ ¬ l.wf = true := by
  unfold assemble
  split <;> simp_all

/-- The word of a line, where it has one (R79). -/
theorem assemble_eq_some {l : AsmLine} {w : CommandWord} : assemble l = some w ↔ l.wf = true ∧ lineWord l = w := by
  unfold assemble
  split <;> simp_all

/-- The `OP` of a line: that of R79's table, or the `op` of RAW. -/
theorem opField_lineWord (l : AsmLine) :
    opField (lineWord l) = match l with
      | .new _ => 0x1#4
      | .set _ => 0x2#4
      | .clear _ => 0x3#4
      | .test _ => 0x4#4
      | .flip _ => 0x5#4
      | .raw op _ => BitVec.ofNat 4 op.toNat := by
  cases l <;> exact opField_append _ _

/-- The `ARG` of a line: that of its operand, the second one of RAW (R79). -/
theorem argField_lineWord (l : AsmLine) :
    argField (lineWord l) = match l with
      | .new v | .set v | .clear v | .test v | .flip v | .raw _ v => argOfOperand v := by
  cases l <;> exact argField_append _ _

end Sys2Proof.Machine
end

