-- ==== Sys2Proof/Laws/Memory.lean ====
section
/-! SUPPORT. The laws of the storage: a read after a write, every operation keeps the canonical form, and canonical
memories over one background are equal when they read alike. -/

namespace Sys2Proof.Machine

/-! ## Cells -/

theorem lookupCell_filter (p : Nat → Bool) (a : Nat) (cs : List Host.Cell) :
    lookupCell a (cs.filter (fun c => p c.1)) = if p a then lookupCell a cs else none := by
  induction cs with
  | nil => simp [lookupCell]
  | cons c cs ih =>
    by_cases hc : p c.1
    · rw [List.filter_cons_of_pos (by simpa using hc)]
      by_cases ha : c.1 = a
      · subst ha; simp [lookupCell, hc]
      · simp [lookupCell, ha, ih]
    · rw [List.filter_cons_of_neg (by simpa using hc), ih]
      by_cases ha : c.1 = a
      · subst ha; simp [hc]
      · simp [lookupCell, ha]

theorem lookupCell_erase (a b : Nat) (cs : List Host.Cell) :
    lookupCell b (eraseCell a cs) = if b = a then none else lookupCell b cs := by
  have := lookupCell_filter (fun x => decide (x ≠ a)) b cs
  by_cases h : b = a <;> simp_all [eraseCell]

theorem lookupCell_none_of_lt {a : Nat} {cs : List Host.Cell} (h : ∀ c ∈ cs, a < c.1) : lookupCell a cs = none := by
  induction cs with
  | nil => rfl
  | cons c cs ih =>
    have hc := h c (by simp)
    rw [lookupCell, if_neg (by omega), ih fun d hd => h d (by simp [hd])]

theorem lookupCell_insert (a b : Nat) (v : Byte) (cs : List Host.Cell) :
    lookupCell b (insertCell a v cs) = if b = a then some v else lookupCell b cs := by
  induction cs with
  | nil => simp only [insertCell, lookupCell, eq_comm]
  | cons c cs ih =>
    simp only [insertCell]
    split
    · simp only [lookupCell, eq_comm]
    · split
      · next h => subst h; simp only [lookupCell]; by_cases hb : b = c.1 <;> simp [hb, eq_comm]
      · next h1 h2 =>
        simp only [lookupCell, ih]
        by_cases hb : b = a
        · subst hb; simp [show ¬ c.1 = b from fun e => h2 e.symm]
        · simp [hb]

theorem mem_insertCell {a : Nat} {v : Byte} {cs : List Host.Cell} {d : Host.Cell} (h : d ∈ insertCell a v cs) :
    d = (a, v) ∨ d ∈ cs := by
  induction cs with
  | nil => simpa [insertCell] using h
  | cons c cs ih =>
    simp only [insertCell] at h
    split at h
    · simpa using h
    · split at h
      · rcases List.mem_cons.1 h with h | h
        · exact .inl h
        · exact .inr (by simp [h])
      · rcases List.mem_cons.1 h with h | h
        · exact .inr (by simp [h])
        · rcases ih h with h | h
          · exact .inl h
          · exact .inr (by simp [h])

theorem insertCell_rising {a : Nat} {v : Byte} {cs : List Host.Cell} (h : cs.Pairwise (fun c d => c.1 < d.1)) :
    (insertCell a v cs).Pairwise (fun c d => c.1 < d.1) := by
  induction cs with
  | nil => simp [insertCell]
  | cons c cs ih =>
    obtain ⟨hc, hcs⟩ := List.pairwise_cons.1 h
    simp only [insertCell]
    split
    · next hlt =>
      refine List.pairwise_cons.2 ⟨fun d hd => ?_, h⟩
      rcases List.mem_cons.1 hd with rfl | hd
      · exact hlt
      · exact lt_trans hlt (hc d hd)
    · split
      · next heq => exact List.pairwise_cons.2 ⟨fun d hd => by simpa [heq] using hc d hd, hcs⟩
      · next h1 h2 =>
        refine List.pairwise_cons.2 ⟨fun d hd => ?_, ih hcs⟩
        rcases mem_insertCell hd with rfl | hd
        · simpa using (by omega : c.1 < a)
        · exact hc d hd

theorem lookupCell_of_mem {cs : List Host.Cell} (h : cs.Pairwise (fun c d => c.1 < d.1)) {c : Host.Cell} (hc : c ∈ cs) :
    lookupCell c.1 cs = some c.2 := by
  induction cs with
  | nil => simp at hc
  | cons d ds ih =>
    obtain ⟨hd, hds⟩ := List.pairwise_cons.1 h
    rcases List.mem_cons.1 hc with rfl | hc
    · simp [lookupCell]
    · rw [lookupCell, if_neg (by have := hd c hc; omega), ih hds hc]

theorem mem_of_lookupCell {a : Nat} {v : Byte} {cs : List Host.Cell} (h : lookupCell a cs = some v) : (a, v) ∈ cs := by
  induction cs with
  | nil => simp [lookupCell] at h
  | cons c cs ih =>
    rw [lookupCell] at h
    split at h
    · next heq => simp only [Option.some.injEq] at h; subst heq; subst h; simp
    · exact List.mem_cons_of_mem _ (ih h)

/-! ## The fields after each operation -/

@[simp] theorem write_epoch (m : Memory) (a : Nat) (v : Byte) : (m.write a v).epoch = m.epoch := rfl
@[simp] theorem write_zeroedBelow (m : Memory) (a : Nat) (v : Byte) : (m.write a v).zeroedBelow = m.zeroedBelow := rfl
@[simp] theorem zeroBelow_epoch (m : Memory) (n : Nat) : (m.zeroBelow n).epoch = m.epoch := rfl
@[simp] theorem zeroBelow_zeroedBelow (m : Memory) (n : Nat) : (m.zeroBelow n).zeroedBelow = max m.zeroedBelow n := rfl
@[simp] theorem zeroBelow_cells (m : Memory) (n : Nat) :
    (m.zeroBelow n).cells = m.cells.filter (fun c => decide (n ≤ c.1)) := rfl
@[simp] theorem scramble_epoch (m : Memory) : m.scramble.epoch = m.epoch + 1 := rfl
@[simp] theorem scramble_zeroedBelow (m : Memory) : m.scramble.zeroedBelow = 0 := rfl
@[simp] theorem scramble_cells (m : Memory) : m.scramble.cells = [] := rfl

/-- A cell of a written memory was listed before, or is the written byte. -/
theorem mem_write_cells {m : Memory} {a : Nat} {v : Byte} {c : Host.Cell} (h : c ∈ (m.write a v).cells) :
    c ∈ m.cells ∨ c = (a, v) := by
  unfold Memory.write at h
  dsimp only at h
  split at h
  · exact .inl (List.mem_filter.1 h).1
  · exact (mem_insertCell h).symm

/-! ## Reads -/

/-- A read after a write: the written byte at its address, every other byte as before (R50). -/
theorem read_write (m : Memory) (a : Nat) (v : Byte) (b : Nat) :
    (m.write a v).read b = if b = a then v else m.read b := by
  have hu : (m.write a v).unlisted b = m.unlisted b := rfl
  unfold Memory.read
  rw [hu]
  unfold Memory.write
  split
  · next hv =>
    rw [lookupCell_erase]
    by_cases hb : b = a
    · subst hb; simp [hv]
    · simp [hb]
  · rw [lookupCell_insert]
    by_cases hb : b = a <;> simp [hb]

/-- A read after the bulk zeroing: 0 below the bound, every other byte as before (R53). -/
theorem read_zeroBelow (m : Memory) (n b : Nat) : (m.zeroBelow n).read b = if b < n then 0#8 else m.read b := by
  unfold Memory.read Memory.zeroBelow Memory.unlisted
  have := lookupCell_filter (fun x => decide (n ≤ x)) b m.cells
  simp only at this ⊢
  rw [this]
  by_cases hb : b < n
  · simp [hb, Nat.not_le.2 hb]
  · simp [hb, Nat.not_lt.1 hb]

/-- A read access changes nothing, a write access one byte (R50). -/
theorem read_perform (m : Memory) (x : MuxAccess) (b : Nat) :
    (m.perform x).read b =
      match x.access with
      | .read _ => m.read b
      | .write j v => if b = byteAddr x.shard.toNat j.toNat then v else m.read b := by
  unfold Memory.perform
  cases x.access with
  | read j => rfl
  | write j v => exact read_write ..

/-! ## The canonical form -/

theorem write_wf {m : Memory} (h : m.wf) (a : Nat) (v : Byte) : (m.write a v).wf := by
  obtain ⟨hr, hu⟩ := h
  unfold Memory.write
  split
  · refine ⟨hr.sublist List.filter_sublist, fun c hc => ?_⟩
    exact hu c (List.mem_filter.1 hc).1
  · next hv =>
    refine ⟨insertCell_rising hr, fun c hc => ?_⟩
    rcases mem_insertCell hc with rfl | hc
    · exact hv
    · exact hu c hc

theorem zeroBelow_wf {m : Memory} (h : m.wf) (n : Nat) : (m.zeroBelow n).wf := by
  obtain ⟨hr, hu⟩ := h
  refine ⟨hr.sublist List.filter_sublist, fun c hc => ?_⟩
  obtain ⟨hc, hn⟩ := List.mem_filter.1 hc
  have hn : n ≤ c.1 := by simpa using hn
  have heq : (m.zeroBelow n).unlisted c.1 = m.unlisted c.1 := by
    by_cases hz : c.1 < m.zeroedBelow
    · simp [Memory.unlisted, Memory.zeroBelow, hz]
    · simp [Memory.unlisted, Memory.zeroBelow, hz, Nat.not_lt.2 hn]
  rw [heq]
  exact hu c hc

theorem scramble_wf (m : Memory) : m.scramble.wf := by
  simp [Memory.wf, Memory.scramble]

theorem perform_wf {m : Memory} (h : m.wf) (x : MuxAccess) : (m.perform x).wf := by
  unfold Memory.perform
  cases x.access with
  | read j => exact h
  | write j v => exact write_wf h ..

/-- The reset state's memory has the canonical form, whatever the parameters. -/
theorem resetWith_wf (p : Config.Params) : (State.resetWith p).storage.wf := by
  simp [Memory.wf, State.resetWith]

/-- The canonical form makes equal memories equal data: two canonical lists of cells over one background that read alike
are the same list. -/
theorem memory_ext {m n : Memory} (hm : m.wf) (hn : n.wf) (he : m.epoch = n.epoch) (hz : m.zeroedBelow = n.zeroedBelow)
    (h : ∀ a, m.read a = n.read a) : m = n := by
  have hu : ∀ a, m.unlisted a = n.unlisted a := fun a => by simp [Memory.unlisted, he, hz]
  have hl : ∀ {m n : Memory}, m.wf → (∀ a, m.unlisted a = n.unlisted a) → (∀ a, m.read a = n.read a) → m.cells ⊆ n.cells := by
    intro m n hm hu h c hc
    have hread := h c.1
    unfold Memory.read at hread
    rw [lookupCell_of_mem hm.1 hc, ← hu] at hread
    rcases hk : lookupCell c.1 n.cells with _ | v
    · rw [hk] at hread; exact absurd hread (hm.2 c hc)
    · rw [hk] at hread
      have hv : c.2 = v := hread
      subst hv
      exact mem_of_lookupCell hk
  have hcells : m.cells = n.cells := by
    have hs : ∀ {m : Memory}, m.wf → m.cells.Nodup := fun hm => hm.1.imp fun h e => by subst e; exact lt_irrefl _ h
    refine List.Perm.eq_of_pairwise (le := fun c d => c.1 ≤ d.1) ?_ (hm.1.imp le_of_lt) (hn.1.imp le_of_lt) ?_
    · intro c d hc hd h1 h2
      have : c.1 = d.1 := le_antisymm h1 h2
      have h3 := lookupCell_of_mem hm.1 hc
      have h4 := lookupCell_of_mem hn.1 hd
      have h5 := lookupCell_of_mem hn.1 (hl hm hu h hc)
      rw [this, h4] at h5
      exact Prod.ext this (Option.some.inj h5).symm
    · exact (List.perm_ext_iff_of_nodup (hs hm) (hs hn)).2 fun c =>
        ⟨fun hc => hl hm hu h hc, fun hc => hl hn (fun a => (hu a).symm) (fun a => (h a).symm) hc⟩
  cases m; cases n; simp_all

end Sys2Proof.Machine
end

