-- ==== Sys2Proof/Laws/Shape.lean ====
section
/-! SUPPORT. The arithmetic of the decoder and of the vector's shape, once for every proof (R24, R41, R91). -/

namespace Sys2Proof.Machine

theorem shardBits_eq : Config.shardBits = 2147483647 := rfl

theorem shardBytesFull_eq : Config.shardBytesFull = 268435456 := rfl

/-! ## signed64 (R12) -/

theorem signed64_eq_toInt (v : Arg) : signed64 v = v.toInt := by
  have := v.isLt
  unfold signed64
  rw [BitVec.toInt_eq_toNat_cond]
  split <;> split <;> omega

/-- A word that denotes a non-negative integer denotes its own unsigned value, below `2 ^ 63`. -/
theorem signed64_of_nonneg {v : Arg} (h : 0 ≤ signed64 v) : signed64 v = (v.toNat : Int) ∧ v.toNat < 9223372036854775808 := by
  have := v.isLt
  unfold signed64 at h ⊢
  split at h
  · next hv => simp [hv]
  · omega

/-! ## The decoder (R40) -/

/-- Everything the decoder answers for a bit number that is not negative: the coordinates of R41, untruncated, and the
range check of R43. -/
theorem addressDecoder_of_nonneg {bitNum : Arg} (width : Arg) (shardCount : ShardIdx) (h : 0 ≤ signed64 bitNum) :
    (addressDecoder bitNum width shardCount).shardIdx.toNat = shardOf bitNum.toNat ∧
    (addressDecoder bitNum width shardCount).within.toNat = withinOf bitNum.toNat ∧
    (addressDecoder bitNum width shardCount).byteIdx.toNat = byteOf bitNum.toNat ∧
    (addressDecoder bitNum width shardCount).bitOff.toNat = bitOf bitNum.toNat ∧
    (addressDecoder bitNum width shardCount).inRange =
      (decide (bitNum.toNat < width.toNat) && decide (shardOf bitNum.toNat < shardCount.toNat)) := by
  obtain ⟨hb, hlt⟩ := signed64_of_nonneg h
  have hs : (decoderShardIdx bitNum width shardCount).toNat = shardOf bitNum.toNat := by
    unfold decoderShardIdx
    rw [if_neg (by omega), hb, BitVec.toNat_ofNat, Int.toNat_natCast]
    unfold shardOf
    rw [shardBits_eq]
    omega
  have hr : decoderInRange bitNum width shardCount =
      (decide (bitNum.toNat < width.toNat) && decide (shardOf bitNum.toNat < shardCount.toNat)) := by
    unfold decoderInRange
    rw [hs, hb]
    simp
  unfold addressDecoder
  rw [if_neg (by omega)]
  refine ⟨hs, ?_, ?_, ?_, hr⟩
  all_goals
    rw [hb, BitVec.toNat_ofNat, Int.toNat_natCast]
    simp only [byteOf, bitOf, withinOf, shardBits_eq]
    omega

/-- A negative bit number is never in range (R46). -/
theorem addressDecoder_inRange_of_neg {bitNum : Arg} (width : Arg) (shardCount : ShardIdx) (h : signed64 bitNum < 0) :
    (addressDecoder bitNum width shardCount).inRange = false := by
  unfold addressDecoder
  rw [if_pos h]
  simp [decoderInRange, Int.not_le.2 h]

/-! ## The shape -/

theorem bytesNeeded_le (w i : Nat) : bytesNeeded w i ≤ 268435456 := by
  simp only [bytesNeeded, ceilDiv, shardBits_eq]
  omega

/-- Every shard before the last is full (R24). -/
theorem bytesNeeded_full {w i : Nat} (h : i + 1 < shardsNeeded w) : bytesNeeded w i = 268435456 := by
  simp only [bytesNeeded, shardsNeeded, ceilDiv, shardBits_eq] at *
  omega

theorem bytesNeeded_pos {w i : Nat} (h : i < shardsNeeded w) : 0 < bytesNeeded w i := by
  simp only [bytesNeeded, shardsNeeded, ceilDiv, shardBits_eq] at *
  omega

theorem shardsNeeded_lt {w : Nat} (h : w < 9223372036854775808) : shardsNeeded w ≤ 4294967299 := by
  simp only [shardsNeeded, ceilDiv, shardBits_eq] at *
  omega

theorem shardLenAt_pushRun (count : Nat) (len : ShardBytes) (runs : List ShardRun) (i : Nat) :
    shardLenAt (pushRun count len runs) i = if i < count then len else shardLenAt runs (i - count) := by
  unfold pushRun
  split
  · next h => simp [h]
  · cases runs with
    | nil => simp [shardLenAt]
    | cons r rest =>
      dsimp only
      split
      · next hlen =>
        simp only [shardLenAt]
        by_cases h1 : i < count
        · simp [h1, show i < count + r.count by omega]
        · by_cases h2 : i < count + r.count
          · simp [h1, h2, show i - count < r.count by omega, hlen]
          · simp [h1, h2, show ¬ i - count < r.count by omega, Nat.sub_sub]
      · simp [shardLenAt]

/-- The table NEW writes holds `L[i]` of R24 at every `i < N` and 0 at every other. -/
theorem shardLenAt_table (w i : Nat) :
    (shardLenAt (shardLenTable w) i).toNat = if i < shardsNeeded w then bytesNeeded w i else 0 := by
  have hle : ∀ j, bytesNeeded w j % 2 ^ 29 = bytesNeeded w j := fun j =>
    Nat.mod_eq_of_lt (lt_of_le_of_lt (bytesNeeded_le w j) (by norm_num))
  unfold shardLenTable
  split
  · next h => simp [shardLenAt, h]
  · next h =>
    rw [shardLenAt_pushRun, shardLenAt_pushRun]
    split
    · next h1 =>
      rw [if_pos (by omega), BitVec.toNat_ofNat, hle, bytesNeeded_full (i := i) (by omega), bytesNeeded_full (i := 0) (by omega)]
    · next h1 =>
      split
      · next h2 =>
        rw [if_pos (by omega), BitVec.toNat_ofNat, hle, show i = shardsNeeded w - 1 by omega]
      · rw [if_neg (by omega)]; rfl

/-- The bytes `i < N`, `j < L[i]` are exactly the linear addresses below `allocEnd` (entry 7). -/
theorem byteAddr_lt_allocEnd (w i j : Nat) (hj : j < Config.shardBytesFull) :
    byteAddr i j < allocEnd w ↔ i < shardsNeeded w ∧ j < bytesNeeded w i := by
  have hb := bytesNeeded_le w (shardsNeeded w - 1)
  rw [shardBytesFull_eq] at hj
  unfold byteAddr allocEnd
  rw [shardBytesFull_eq]
  by_cases h0 : shardsNeeded w = 0
  · simp [h0]
  · rw [if_neg h0]
    by_cases h1 : i + 1 < shardsNeeded w
    · have := bytesNeeded_full h1
      omega
    · by_cases h2 : i + 1 = shardsNeeded w
      · rw [show shardsNeeded w - 1 = i by omega]
        omega
      · omega

/-- The linear address names the byte (entry 6). -/
theorem byteAddr_inj {i j i' j' : Nat} (hj : j < Config.shardBytesFull) (hj' : j' < Config.shardBytesFull)
    (h : byteAddr i j = byteAddr i' j') : i = i' ∧ j = j' := by
  unfold byteAddr at h
  rw [shardBytesFull_eq] at *
  omega

end Sys2Proof.Machine
end

