-- ==== Sys2Proof/Laws/State.lean ====
section
/-! SUPPORT. What each named update of the state leaves in each field: true by unfolding it once, here. -/

namespace Sys2Proof.Machine

/-! ## A response -/

@[simp] theorem respond_phys (s : State) (st : Status) (r : Bool) : (s.respond st r).phys = s.phys := rfl
@[simp] theorem respond_configured (s : State) (st : Status) (r : Bool) : (s.respond st r).configured = s.configured := rfl
@[simp] theorem respond_width (s : State) (st : Status) (r : Bool) : (s.respond st r).width = s.width := rfl
@[simp] theorem respond_shardCount (s : State) (st : Status) (r : Bool) : (s.respond st r).shardCount = s.shardCount := rfl
@[simp] theorem respond_shardLen (s : State) (st : Status) (r : Bool) : (s.respond st r).shardLen = s.shardLen := rfl
@[simp] theorem respond_storage (s : State) (st : Status) (r : Bool) : (s.respond st r).storage = s.storage := rfl
@[simp] theorem respond_inputs (s : State) (st : Status) (r : Bool) : (s.respond st r).inputs = s.inputs := rfl
@[simp] theorem respond_responses (s : State) (st : Status) (r : Bool) :
    (s.respond st r).responses = s.responses ++ [responseWord st r] := rfl

/-- An error outcome is a response with RESULT 0 and nothing else (R13). -/
theorem raiseError_eq (st : Status) (s : State) : raiseError st s = s.respond st false := rfl

/-! ## Other storage -/

@[simp] theorem setStorage_phys (s : State) (m : Memory) : (s.setStorage m).phys = s.phys := rfl
@[simp] theorem setStorage_configured (s : State) (m : Memory) : (s.setStorage m).configured = s.configured := rfl
@[simp] theorem setStorage_width (s : State) (m : Memory) : (s.setStorage m).width = s.width := rfl
@[simp] theorem setStorage_shardCount (s : State) (m : Memory) : (s.setStorage m).shardCount = s.shardCount := rfl
@[simp] theorem setStorage_shardLen (s : State) (m : Memory) : (s.setStorage m).shardLen = s.shardLen := rfl
@[simp] theorem setStorage_storage (s : State) (m : Memory) : (s.setStorage m).storage = m := rfl
@[simp] theorem setStorage_inputs (s : State) (m : Memory) : (s.setStorage m).inputs = s.inputs := rfl
@[simp] theorem setStorage_responses (s : State) (m : Memory) : (s.setStorage m).responses = s.responses := rfl

/-! ## A construction (R93) -/

@[simp] theorem construct_phys (w : Nat) (s : State) : (construct w s).phys = s.phys := rfl
@[simp] theorem construct_configured (w : Nat) (s : State) : (construct w s).configured = true := rfl
@[simp] theorem construct_width (w : Nat) (s : State) : (construct w s).width = BitVec.ofNat 64 w := rfl
@[simp] theorem construct_shardCount (w : Nat) (s : State) : (construct w s).shardCount = BitVec.ofNat 33 (shardsNeeded w) := rfl
@[simp] theorem construct_shardLen (w : Nat) (s : State) : (construct w s).shardLen = shardLenTable w := rfl
@[simp] theorem construct_storage (w : Nat) (s : State) : (construct w s).storage = s.storage.zeroBelow (allocEnd w) := rfl
@[simp] theorem construct_inputs (w : Nat) (s : State) : (construct w s).inputs = s.inputs := rfl
@[simp] theorem construct_responses (w : Nat) (s : State) : (construct w s).responses = s.responses := rfl

/-! ## A reset pulse (R160) -/

@[simp] theorem resetBlock_phys (s : State) : (resetBlock s).phys = s.phys := rfl
@[simp] theorem resetBlock_configured (s : State) : (resetBlock s).configured = false := rfl
@[simp] theorem resetBlock_width (s : State) : (resetBlock s).width = 0#64 := rfl
@[simp] theorem resetBlock_shardCount (s : State) : (resetBlock s).shardCount = 0#33 := rfl
@[simp] theorem resetBlock_shardLen (s : State) : (resetBlock s).shardLen = [] := rfl
@[simp] theorem resetBlock_storage (s : State) : (resetBlock s).storage = s.storage.scramble := rfl
@[simp] theorem resetBlock_inputs (s : State) : (resetBlock s).inputs = s.inputs := rfl
@[simp] theorem resetBlock_responses (s : State) : (resetBlock s).responses = s.responses := rfl

/-! ## Taking an input, and presenting a word -/

theorem takeInput_nil {s : State} (h : s.inputs = []) : takeInput s = none := by
  simp [takeInput, h]

theorem takeInput_cons {s : State} {x : HostInput} {rest : List HostInput} (h : s.inputs = x :: rest) :
    takeInput s = some (x, { s with inputs := rest }) := by
  simp [takeInput, h]

@[simp] theorem presentWord_inputs (w : CommandWord) (s : State) : (presentWord w s).inputs = .command w :: s.inputs := rfl
@[simp] theorem presentWord_phys (w : CommandWord) (s : State) : (presentWord w s).phys = s.phys := rfl
@[simp] theorem presentWord_configured (w : CommandWord) (s : State) : (presentWord w s).configured = s.configured := rfl
@[simp] theorem presentWord_width (w : CommandWord) (s : State) : (presentWord w s).width = s.width := rfl
@[simp] theorem presentWord_shardCount (w : CommandWord) (s : State) : (presentWord w s).shardCount = s.shardCount := rfl
@[simp] theorem presentWord_shardLen (w : CommandWord) (s : State) : (presentWord w s).shardLen = s.shardLen := rfl
@[simp] theorem presentWord_storage (w : CommandWord) (s : State) : (presentWord w s).storage = s.storage := rfl
@[simp] theorem presentWord_responses (w : CommandWord) (s : State) : (presentWord w s).responses = s.responses := rfl

/-! ## What a step can do -/

/-- A step in one of its four cases: idle, a reset pulse, a command, a reserved word. -/
theorem step_eq (s : State) :
    step s =
      match s.inputs with
      | [] => .next s
      | .reset :: rest => .next (resetBlock { s with inputs := rest })
      | .resetDuring _ :: rest => .next (resetBlock { s with inputs := rest })
      | .command w :: rest =>
        match decode w with
        | .ok i => exec i { s with inputs := rest }
        | .error _ => .next (({ s with inputs := rest } : State).respond .reservedOp false) := by
  unfold step takeInput
  rcases h : s.inputs with _ | ⟨x, rest⟩
  · rfl
  · cases x with
    | command w =>
      dsimp only
      rcases decode w with ⟨op⟩ | i <;> rfl
    | reset => rfl
    | resetDuring w => rfl

end Sys2Proof.Machine
end

