-- ==== Sys2Proof/Laws/Ops.lean ====
section
/-! SUPPORT. One lemma per shared operation that says everything it can do, and from them what each command can do: proofs
cite these instead of unfolding the operations. -/

namespace Sys2Proof.Machine

/-! ## Responses -/

/-- The host reads back the status and the result that were sent (R75, R76). -/
theorem readResponse_responseWord (st : Status) (r : Bool) : readResponse (responseWord st r) = some { status := st, result := r } := by
  cases st <;> cases r <;> decide

theorem responseWord_inj {st st' : Status} {r r' : Bool} (h : responseWord st r = responseWord st' r') : st = st' ∧ r = r' := by
  have h1 := readResponse_responseWord st r
  rw [h, readResponse_responseWord] at h1
  simp only [Option.some.injEq, Response.mk.injEq] at h1
  exact ⟨h1.1.symm, h1.2.symm⟩

/-! ## The mux -/

/-- A read answers the byte when it exists and faults when it does not (R50). -/
theorem memRead_eq (i : ShardIdx) (j : ByteIdx) (s : State) :
    memRead i j s = if ByteExists s.phys i.toNat j.toNat then .ok (s.storage.read (byteAddr i.toNat j.toNat))
      else .error (.absentByte i.toNat j.toNat) := rfl

/-- A write changes one byte when it exists and faults when it does not (R50). -/
theorem memWrite_eq (i : ShardIdx) (j : ByteIdx) (v : Byte) (s : State) :
    memWrite i j v s = if ByteExists s.phys i.toNat j.toNat then .ok (s.setStorage (s.storage.write (byteAddr i.toNat j.toNat) v))
      else .error (.absentByte i.toNat j.toNat) := rfl

/-! ## The front end (R100) -/

/-- The front end hits exactly the in-range, allocated and existing byte the decoder names, and reads it. -/
theorem frontEnd_hit {arg : Arg} {s : State} {i : ShardIdx} {j : ByteIdx} {k : BitOff} {old : Byte}
    (h : frontEnd arg s = .hit i j k old) :
    0 ≤ signed64 arg ∧ arg.toNat < s.width.toNat ∧
    i.toNat = shardOf arg.toNat ∧ j.toNat = byteOf arg.toNat ∧ k.toNat = bitOf arg.toNat ∧
    Allocated s (shardOf arg.toNat) (byteOf arg.toNat) ∧ ByteExists s.phys (shardOf arg.toNat) (byteOf arg.toNat) ∧
    old = s.storage.read (byteAddr (shardOf arg.toNat) (byteOf arg.toNat)) := by
  have hneg : 0 ≤ signed64 arg := by
    by_contra hc
    rw [frontEnd] at h
    simp [addressDecoder_inRange_of_neg s.width s.shardCount (Int.not_le.1 hc)] at h
  obtain ⟨hi, -, hj, hk, hr⟩ := addressDecoder_of_nonneg s.width s.shardCount hneg
  rw [frontEnd] at h
  split at h
  · cases h
  · next h1 =>
    split at h
    · cases h
    · next h2 =>
      rw [memRead_eq] at h
      by_cases h3 : ByteExists s.phys (addressDecoder arg s.width s.shardCount).shardIdx.toNat
          (addressDecoder arg s.width s.shardCount).byteIdx.toNat
      · rw [if_pos h3] at h
        simp only [FrontEnd.hit.injEq] at h
        obtain ⟨rfl, rfl, rfl, rfl⟩ := h
        rw [hr] at h1
        rw [not_not] at h2
        rw [hi, hj] at h2 h3
        simp only [Bool.and_eq_false_iff, decide_eq_false_iff_not, not_or, not_not] at h1
        exact ⟨hneg, h1.1, hi, hj, hk, h2, h3, by rw [hi, hj]⟩
      · rw [if_neg h3] at h; cases h

/-- The conditions under which the front end hits, and what it then answers. -/
theorem frontEnd_of_allocated {arg : Arg} {s : State} (h0 : 0 ≤ signed64 arg) (hw : arg.toNat < s.width.toNat)
    (ha : Allocated s (shardOf arg.toNat) (byteOf arg.toNat)) (he : ByteExists s.phys (shardOf arg.toNat) (byteOf arg.toNat)) :
    ∃ (i : ShardIdx) (j : ByteIdx) (k : BitOff),
      i.toNat = shardOf arg.toNat ∧ j.toNat = byteOf arg.toNat ∧ k.toNat = bitOf arg.toNat ∧
      frontEnd arg s = .hit i j k (s.storage.read (byteAddr (shardOf arg.toNat) (byteOf arg.toNat))) := by
  obtain ⟨hi, -, hj, hk, hr⟩ := addressDecoder_of_nonneg s.width s.shardCount h0
  refine ⟨_, _, _, hi, hj, hk, ?_⟩
  rw [frontEnd]
  rw [if_neg (by rw [hr]; simp [hw, ha.2.1]), if_neg (by rw [hi, hj]; exact not_not.2 ha), memRead_eq, hi, hj, if_pos he]

/-- A bit number outside `[0, width)` is refused (R43). -/
theorem frontEnd_outOfRange {arg : Arg} {s : State} (h : ¬ (0 ≤ signed64 arg ∧ signed64 arg < (s.width.toNat : Int))) :
    frontEnd arg s = .outOfRange := by
  rw [frontEnd]
  rw [if_pos]
  by_cases h0 : 0 ≤ signed64 arg
  · obtain ⟨-, -, -, -, hr⟩ := addressDecoder_of_nonneg s.width s.shardCount h0
    rw [hr]
    have := (signed64_of_nonneg h0).1
    simp only [Bool.and_eq_false_iff, decide_eq_false_iff_not]
    left
    omega
  · exact addressDecoder_inRange_of_neg _ _ (Int.not_le.1 h0)

/-! ## The commands -/

/-- Where a front end hits, a rewriting accessor writes the addressed byte and answers `OK`: its other check, that the
byte exists, is the one the read has made. -/
theorem modifyBit_of_hit {f : Byte → Byte → Byte} {arg : Arg} {s : State} {i : ShardIdx} {j : ByteIdx} {k : BitOff} {old : Byte}
    (h : frontEnd arg s = .hit i j k old) :
    modifyBit f arg s =
      .next ((s.setStorage (s.storage.write (byteAddr (shardOf arg.toNat) (byteOf arg.toNat)) (f old (bitMask k)))).respond .ok false) := by
  obtain ⟨-, -, hi, hj, -, -, he, -⟩ := frontEnd_hit h
  rw [modifyBit, h]
  dsimp only
  rw [memWrite_eq, hi, hj, if_pos he]

/-- A rewriting accessor that answers a next state was refused, or it wrote the addressed byte. -/
theorem modifyBit_next {f : Byte → Byte → Byte} {arg : Arg} {s t : State} (h : modifyBit f arg s = .next t) :
    (frontEnd arg s = .outOfRange ∧ t = s.respond .outOfRange false) ∨
    ∃ i j k old, frontEnd arg s = .hit i j k old ∧
      t = (s.setStorage (s.storage.write (byteAddr (shardOf arg.toNat) (byteOf arg.toNat)) (f old (bitMask k)))).respond .ok false := by
  rcases hf : frontEnd arg s with _ | e | ⟨i, j, k, old⟩
  · rw [modifyBit, hf] at h
    exact .inl ⟨rfl, (Host.Outcome.next.inj h).symm⟩
  · rw [modifyBit, hf] at h
    cases h
  · rw [modifyBit_of_hit hf] at h
    exact .inr ⟨i, j, k, old, rfl, (Host.Outcome.next.inj h).symm⟩

/-- TEST answering a next state was refused, or it returned the addressed bit. -/
theorem readBit_next {arg : Arg} {s t : State} (h : readBit arg s = .next t) :
    (frontEnd arg s = .outOfRange ∧ t = s.respond .outOfRange false) ∨
    ∃ i j k old, frontEnd arg s = .hit i j k old ∧ t = s.respond .ok (testedBit old k) := by
  rcases hf : frontEnd arg s with _ | e | ⟨i, j, k, old⟩
  · rw [readBit, hf] at h
    exact .inl ⟨rfl, (Host.Outcome.next.inj h).symm⟩
  · rw [readBit, hf] at h
    cases h
  · rw [readBit, hf] at h
    exact .inr ⟨i, j, k, old, rfl, (Host.Outcome.next.inj h).symm⟩

/-- NEW always answers a next state: one of its three errors, or the construction (R90, R147). -/
theorem execNew_cases (arg : Arg) (s : State) :
    (s.configured = true ∧ execNew arg s = .next (s.respond .alreadyConstructed false)) ∨
    (s.configured = false ∧ signed64 arg < 0 ∧ execNew arg s = .next (s.respond .invalidWidth false)) ∨
    (s.configured = false ∧ 0 ≤ signed64 arg ∧ fits s.phys (signed64 arg).toNat = false ∧
      execNew arg s = .next (s.respond .allocFail false)) ∨
    (s.configured = false ∧ 0 ≤ signed64 arg ∧ fits s.phys (signed64 arg).toNat = true ∧
      execNew arg s = .next ((construct (signed64 arg).toNat s).respond .ok false)) := by
  rw [execNew]
  rcases hc : s.configured
  · by_cases hn : signed64 arg < 0
    · simp [hn, raiseError_eq]
    · rcases hf : fits s.phys (signed64 arg).toNat
      · simp [hn, Int.not_lt.1 hn, raiseError_eq]
      · simp [hn, Int.not_lt.1 hn]
  · simp [raiseError_eq]

/-! ## The bit of a byte -/

theorem bitMask_getLsbD (k : BitOff) (n : Nat) (hn : n < 8) : (bitMask k).getLsbD n = decide (n = k.toNat) := by
  have := k.isLt
  unfold bitMask
  rw [BitVec.getLsbD_shiftLeft]
  by_cases h : n < k.toNat
  · simp [h, show n ≠ k.toNat by omega]
  · by_cases h2 : n = k.toNat
    · simp [h2]; omega
    · simp [h, h2, hn, show n - k.toNat ≠ 0 by omega]

theorem setByte_getLsbD (x : Byte) (k : BitOff) (n : Nat) (hn : n < 8) :
    (setByte x (bitMask k)).getLsbD n = if n = k.toNat then true else x.getLsbD n := by
  rw [setByte, BitVec.getLsbD_or, bitMask_getLsbD k n hn]
  by_cases h : n = k.toNat <;> simp [h]

theorem clearByte_getLsbD (x : Byte) (k : BitOff) (n : Nat) (hn : n < 8) :
    (clearByte x (bitMask k)).getLsbD n = if n = k.toNat then false else x.getLsbD n := by
  rw [clearByte, BitVec.getLsbD_and, BitVec.getLsbD_not, bitMask_getLsbD k n hn]
  by_cases h : n = k.toNat <;> simp [h, hn]

theorem flipByte_getLsbD (x : Byte) (k : BitOff) (n : Nat) (hn : n < 8) :
    (flipByte x (bitMask k)).getLsbD n = if n = k.toNat then !x.getLsbD n else x.getLsbD n := by
  rw [flipByte, BitVec.getLsbD_xor, bitMask_getLsbD k n hn]
  by_cases h : n = k.toNat <;> simp [h]

theorem testedBit_eq (x : Byte) (k : BitOff) : testedBit x k = x.getLsbD k.toNat := by
  revert x k
  decide +kernel

end Sys2Proof.Machine
end

