-- ==== Sys2Proof/Laws/Invariant.lean ====
section
/-! SUPPORT. How the invariant passes through the named updates of the state. A proof cites these instead of asking Lean to
see that a field of an updated state is the old field: with a written memory inside, that comparison does not end. -/

namespace Sys2Proof.Machine

theorem inv_inputs {s : State} (h : Inv s) (xs : List HostInput) : Inv { s with inputs := xs } := by
  obtain ⟨h1, h2, h3, h4, h5, h6, h7, h8, h9, h10, h11⟩ := h
  exact ⟨h1, h2, h3, h4, h5, h6, h7, h8, h9, h10, h11⟩

theorem responseWord_legal {st : Status} {r : Bool} (h : r = true → st = .ok) : responseWord st r ∈ legalResponses := by
  cases st <;> cases r <;> simp at h <;> decide

theorem inv_respond {s : State} (h : Inv s) {st : Status} {r : Bool} (hr : r = true → st = .ok) : Inv (s.respond st r) := by
  obtain ⟨h1, h2, h3, h4, h5, h6, h7, h8, h9, h10, h11⟩ := h
  refine ⟨h1, h2, h3, h4, h5, h6, h7, h8, h9, h10, fun x hx => ?_⟩
  rw [respond_responses] at hx
  rcases List.mem_append.1 hx with hx | hx
  · exact h11 x hx
  · rw [List.mem_singleton.1 hx]
    exact responseWord_legal hr

/-- Other storage keeps the invariant when its background is the same and its cells satisfy what the invariant says of
cells. -/
theorem inv_setStorage {s : State} (h : Inv s) (m : Memory) (hz : m.zeroedBelow = s.storage.zeroedBelow) (hwf : m.wf)
    (ha : ∀ c ∈ m.cells, c.1 < allocEnd s.width.toNat) (hp : ∀ c ∈ m.cells, PaddingClear s.width.toNat c) :
    Inv (s.setStorage m) where
  phys_legal := by rw [setStorage_phys]; exact h.phys_legal
  unconfigured_width := by rw [setStorage_configured, setStorage_width]; exact h.unconfigured_width
  width_lt := by rw [setStorage_width]; exact h.width_lt
  shardCount_eq := by rw [setStorage_shardCount, setStorage_width]; exact h.shardCount_eq
  shardLen_eq := by rw [setStorage_shardLen, setStorage_width]; exact h.shardLen_eq
  fits_phys := by rw [setStorage_phys, setStorage_width]; exact h.fits_phys
  zeroed_eq := by rw [setStorage_storage, setStorage_width, hz]; exact h.zeroed_eq
  storage_wf := hwf
  cells_allocated := ha
  padding_clear := hp
  responses_legal := h.responses_legal

end Sys2Proof.Machine
end

