-- ==== Sys2Proof/Tests/Slice0.lean ====
section
/-! SUPPORT. Tests. Expected words, bytes and responses come from spec/95_test_vectors.md and the worked examples of the rules;
each test names its source. After them, for every statement with hypotheses, states and operands that meet them. -/

set_option Elab.async false

namespace Sys2Proof.Machine

/-! ## Helpers -/

/-- The next state, if there is one. -/
def nextOf : Result → Option State
  | .next t => some t
  | .fault _ => none
  | .refused _ => none

theorem nextOf_eq {r : Result} {t : State} (h : nextOf r = some t) : r = .next t := by
  cases r <;> simp_all [nextOf]

theorem exists_nextOf {r : Result} (h : (nextOf r).isSome = true) : ∃ t, r = .next t := by
  cases r <;> simp_all [nextOf]

/-- A configured block of width `w` whose storage lists the given cells. -/
def built (p : Config.Params) (w : Nat) (cells : List Host.Cell) : State :=
  { State.resetWith p with
    configured := true
    width := BitVec.ofNat 64 w
    shardCount := BitVec.ofNat 33 (shardsNeeded w)
    shardLen := shardLenTable w
    storage := { epoch := 0, zeroedBelow := allocEnd w, cells := cells } }

/-- Width 10 in one shard of two bytes, bit 3 set (V1 after step 2). -/
def ten : State := built { maxShards := 1, shardMemBytes := 2 } 10 [(0, 0x08#8)]

/-- Width 10, all clear (V1 after step 1). -/
def tenClear : State := built { maxShards := 1, shardMemBytes := 2 } 10 []

/-- Width 16, the first byte 0x81 (V4 after step 3). -/
def sixteen : State := built { maxShards := 1, shardMemBytes := 2 } 16 [(0, 0x81#8)]

/-- Width S + 5 in two shards (V3 after step 1). -/
def twoShards : State := built Config.physical 2147483652 []

/-- The unconfigured block with two memories of one byte (NEWE4, NEWE5). -/
def small : State := State.resetWith { maxShards := 2, shardMemBytes := 1 }

/-! ## Well-formedness: each check refuses an ill-formed term (R79) -/

theorem test_wf_new_below : AsmLine.wf (.new (-9223372036854775809)) = false := by decide
theorem test_wf_set_above : AsmLine.wf (.set 18446744073709551616) = false := by decide
theorem test_wf_clear_above : AsmLine.wf (.clear 18446744073709551616) = false := by decide
theorem test_wf_test_below : AsmLine.wf (.test (-9223372036854775809)) = false := by decide
theorem test_wf_flip_above : AsmLine.wf (.flip 18446744073709551616) = false := by decide
theorem test_wf_raw_op_below : AsmLine.wf (.raw (-1) 0) = false := by decide
theorem test_wf_raw_op_above : AsmLine.wf (.raw 16 0) = false := by decide
theorem test_wf_raw_arg_above : AsmLine.wf (.raw 0 18446744073709551616) = false := by decide
theorem test_wf_raw_ok : AsmLine.wf (.raw 15 (-1)) = true := by decide

/-! ## Decoding: words written out from R71 and R73 (R81, ENC1 to ENC8) -/

theorem test_decode_new : decode (0b0001#4 ++ 0x000000000000000A#64) = .ok (.new 10#64) := by decide
theorem test_decode_set : decode 0x2000000007FFFFFFF#68 = .ok (.set 2147483647#64) := by decide
theorem test_decode_clear : decode 0x30000000100000000#68 = .ok (.clear 4294967296#64) := by decide
theorem test_decode_test : decode 0x4FFFFFFFFFFFFFFFF#68 = .ok (.test 0xFFFFFFFFFFFFFFFF#64) := by decide
theorem test_decode_flip : decode 0x500000000FFFFFFFD#68 = .ok (.flip 4294967293#64) := by decide
theorem test_decode_reserved_6 : decode 0x60000000000000005#68 = .error (.reservedOp 6#4) := by decide
theorem test_decode_reserved_0 : decode 0#68 = .error (.reservedOp 0#4) := by decide
theorem test_encode_flip : encode (.flip 4294967293#64) = 0x500000000FFFFFFFD#68 := by decide
theorem test_decodeTableWord : decodeTableWord 72 0x4FFFFFFFFFFFFFFFF = some (.test 0xFFFFFFFFFFFFFFFF#64) := by decide
theorem test_decodeTableWord_high : decodeTableWord 72 0x100000000000000000 = none := by decide

/-- ENC3, ENC4 and ENC6 from text: digit groups, a negative operand, an expression in `S`, a comment. -/
theorem test_assemble :
    assembleText "clear 0x1_0000_0000 ; comment".toList = some 0x30000000100000000#68 ∧
    assembleText "TEST -1".toList = assembleText "TEST 0xFFFF_FFFF_FFFF_FFFF".toList ∧
    assembleText "FLIP 2*S-1".toList = some 0x500000000FFFFFFFD#68 ∧
    assembleText "NEW 18446744073709551616".toList = none := by decide +kernel

/-! ## The decoder (DEC7, DEC9, DEC16, DEC18) and the shapes (NEW12, NEW15) -/

theorem test_address_function :
    (shardOf 2147483646, byteOf 2147483646, bitOf 2147483646) = (0, 268435455, 6) ∧
    (shardOf 2147483648, byteOf 2147483648, bitOf 2147483648) = (1, 0, 1) ∧
    (shardOf 1000000000000, byteOf 1000000000000, bitOf 1000000000000) = (465, 177513018, 1) ∧
    (shardOf 9223372036854775806, byteOf 9223372036854775806, bitOf 9223372036854775806) = (4294967298, 0, 0) := by decide +kernel

theorem test_shapes :
    (shardsNeeded 2147483656, bytesNeeded 2147483656 0, bytesNeeded 2147483656 1) = (2, 268435456, 2) ∧
    (shardsNeeded 4294967296, bytesNeeded 4294967296 2) = (3, 1) := by decide +kernel

/-! ## One step of each command -/

/-- NEWE5: `NEW 8` fits one byte. -/
theorem test_new_fits : (nextOf (step (small.withFetchWord 72 0x10000000000000008))).map (fun t => (t.shardCount, t.responses)) =
    some (1#33, [0x0#4]) := by decide +kernel

/-- NEWE4: `NEW 9` does not. -/
theorem test_new_alloc_fail : (nextOf (step (small.withFetchWord 72 0x10000000000000009))).map (fun t => (t.configured, t.responses)) =
    some (false, [0x6#4]) := by decide +kernel

/-- SET is OR, not AND (R102): bit 1 beside bit 3. -/
theorem test_set_or : (nextOf (exec (.set 1#64) ten)).map (fun t => t.storage.cells) = some [(0, 0x0A#8)] := by decide +kernel

/-- PROG2 steps 2: `SET S` reaches bit 0 of byte 0 of shard 1. -/
theorem test_set_second_shard : (nextOf (exec (.set 2147483647#64) twoShards)).map (fun t => byteAt t 1 0) = some 0x01#8 := by
  decide +kernel

/-- V4 step 4. -/
theorem test_clear : (nextOf (exec (.clear 0#64) sixteen)).map (fun t => t.storage.cells) = some [(0, 0x80#8)] := by decide +kernel

/-- Clearing the last set bit leaves a byte no cell lists. -/
theorem test_clear_canonical : (nextOf (exec (.clear 3#64) ten)).map (fun t => t.storage) = some tenClear.storage := by decide +kernel

/-- V1 step 3, and its neighbour. -/
theorem test_test : (nextOf (exec (.test 3#64) ten)).map (fun t => t.responses) = some [0x1#4] ∧
    (nextOf (exec (.test 2#64) ten)).map (fun t => t.responses) = some [0x0#4] := by decide +kernel

/-- RC4, RC5. -/
theorem test_test_range : (nextOf (exec (.test 10#64) ten)).map (fun t => t.responses) = some [0x2#4] ∧
    (nextOf (exec (.test (-1#64)) ten)).map (fun t => t.responses) = some [0x2#4] := by decide +kernel

/-- PROG1 step 5: `FLIP 9` in the second byte. -/
theorem test_flip : (nextOf (exec (.flip 9#64) sixteen)).map (fun t => byteAt t 0 1) = some 0x02#8 := by decide +kernel

/-- PROG3 step 9: a reserved word. -/
theorem test_reserved : (nextOf (step (ten.withFetchWord 72 0xF0000000000000007))).map (fun t => (t.storage, t.responses)) =
    some (ten.storage, [0x8#4]) := by decide +kernel

/-! ## States and operands that meet the hypotheses of the statements -/

theorem test_inv_ten : Inv ten := by constructor <;> decide +kernel
theorem test_inv_tenClear : Inv tenClear := by constructor <;> decide +kernel
theorem test_inv_sixteen : Inv sixteen := by constructor <;> decide +kernel
theorem test_inv_twoShards : Inv twoShards := by constructor <;> decide +kernel
theorem test_inv_small : Inv small := by constructor <;> decide +kernel

/-- The block of width 10 to which the host sends one word, then a reset pulse. -/
def tenSent (w : CommandWord) : State := { ten with inputs := [.command w, .reset] }

theorem test_inv_tenSent (w : CommandWord) : Inv (tenSent w) := inv_inputs test_inv_ten _

theorem test_hyp_ResetMeetsTheInvariant : Config.physical.legal := by decide

theorem test_hyp_EveryStepKeepsTheInvariant :
    Inv (tenSent 0x20000000000000009#68) ∧ ∃ t, step (tenSent 0x20000000000000009#68) = .next t :=
  ⟨test_inv_tenSent _, exists_nextOf (by decide +kernel)⟩

theorem test_hyp_ReachableStatesSatisfyRuleR35 :
    (⟨1, 2⟩ : Config.Params).legal ∧
    ∃ s : State, Host.Core.run core 2 ({ State.resetWith ⟨1, 2⟩ with
      inputs := [.command 0x1000000000000000A#68, .command 0x20000000000000003#68] } : State) = .next s :=
  ⟨by decide, exists_nextOf (by decide +kernel)⟩

theorem test_hyp_ResetPulseAbandonsAndClears :
    ({ ten with inputs := [.reset] } : State).inputs = .reset :: [] ∧
    ({ ten with inputs := [.resetDuring 0x20000000000000009#68] } : State).inputs = .resetDuring 0x20000000000000009#68 :: [] :=
  ⟨rfl, rfl⟩

theorem test_hyp_StepRunsTheDecodedCommand :
    (tenSent 0x20000000000000009#68).inputs = .command 0x20000000000000009#68 :: [.reset] ∧
    decode 0x20000000000000009#68 = .ok (.set 9#64) ∧ (Instr.set 9#64).wf = true := ⟨rfl, by decide, rfl⟩

theorem test_hyp_IdleStepHoldsAllState : ten.inputs = [] := rfl

theorem test_hyp_ReservedWordAnswersReservedOp :
    (tenSent (0x0#4 ++ 0#64)).inputs = .command (0x0#4 ++ 0#64) :: [.reset] ∧
    (tenSent (0x6#4 ++ 5#64)).inputs = .command (0x6#4 ++ 5#64) :: [.reset] ∧ 6 ≤ (0x6#4).toNat ∧
    (tenSent (0xF#4 ++ 7#64)).inputs = .command (0xF#4 ++ 7#64) :: [.reset] ∧ 6 ≤ (0xF#4).toNat :=
  ⟨rfl, rfl, by decide, rfl, by decide⟩

theorem test_hyp_EveryCommandReturnsOneResponse :
    Inv (tenSent 0x40000000000000003#68) ∧ (tenSent 0x40000000000000003#68).inputs = .command 0x40000000000000003#68 :: [.reset] ∧
    decode 0x40000000000000003#68 = .ok (.test 3#64) ∧ bitAt (tenSent 0x40000000000000003#68) 3 = true :=
  ⟨test_inv_tenSent _, rfl, by decide, by decide +kernel⟩

theorem test_hyp_EveryRunCompletes : Inv ten := test_inv_ten

theorem test_hyp_ShardedBlockRefinesFlatBitVector :
    Inv (tenSent 0x40000000000000003#68) ∧
    StandsFor (tenSent 0x40000000000000003#68) { configured := true, width := 10, bits := fun b => decide (b = 3) } ∧
    (tenSent 0x40000000000000003#68).inputs = [0x40000000000000003#68].map .command ++ [.reset] :=
  ⟨test_inv_tenSent _, ⟨rfl, by decide +kernel, by decide +kernel⟩, rfl⟩

/-- `ten` with a byte listed that is not allocated. -/
def tenOther : State := ten.setStorage { epoch := 7, zeroedBelow := 2, cells := [(0, 0x08#8), (5, 0x55#8)] }

theorem test_hyp_UnallocatedBytesAreNeverObserved : SameButUnallocated ten tenOther ∧ byteAt tenOther 0 5 = 0x55#8 := by
  refine ⟨⟨rfl, rfl, rfl, rfl, rfl, rfl, rfl, fun i j _ ha => ?_⟩, by decide +kernel⟩
  have hi : i < 1 := ha.2.1
  obtain rfl : i = 0 := by omega
  have hj : j < 2 := lt_of_lt_of_le ha.2.2 (by decide +kernel)
  interval_cases j <;> decide +kernel

theorem test_hyp_DecodeAndEncodeAgree :
    (Instr.set 3#64).wf = true ∧ decode 0x20000000000000003#68 = .ok (.set 3#64) := by decide

theorem test_hyp_AssemblyOperandsEncodeTheirValue :
    ((-9223372036854775808 : Int) ≤ -9223372036854775808 ∧ (18446744073709551615 : Int) < 18446744073709551616) ∧
    (9223372036854775807 : Int) < 9223372036854775808 ∧ (9223372036854775808 : Int) ≤ 9223372036854775808 ∧
    (AsmLine.clear (-1), 0x3#4) ∈ [(AsmLine.new (-1), 0x1#4), (.set (-1), 0x2#4), (.clear (-1), 0x3#4), (.test (-1), 0x4#4),
      (.flip (-1), 0x5#4)] ∧
    assemble (.clear (-1)) = some 0x3FFFFFFFFFFFFFFFF#68 ∧
    assemble (.raw 15 18446744073709551615) = some 0xFFFFFFFFFFFFFFFFF#68 := by decide

theorem test_hyp_DecoderFollowsTheAddressingFunction :
    0 ≤ signed64 0#64 ∧ 0 ≤ signed64 0x7FFFFFFFFFFFFFFF#64 := by decide

theorem test_hyp_DecoderPropertiesOfR44 :
    (7 < 8 ∧ 8 * 0 + 7 < 2147483647) ∧ (9 < 10) ∧ shardOf (7 + 1) = shardOf 7 ∧ shardOf (8 + 1) = shardOf 8 := by decide +kernel

theorem test_hyp_ShardBoundaries : 1 ≤ 1 := le_refl 1

theorem test_hyp_RangeCheckOfR43 :
    Inv ten ∧ IsAccessor (.set 10#64) 10#64 ∧ (addressDecoder 10#64 ten.width ten.shardCount).inRange = false ∧
    (addressDecoder 9#64 ten.width ten.shardCount).inRange = true ∧
    (addressDecoder (-1#64) ten.width ten.shardCount).inRange = false := by
  refine ⟨test_inv_ten, .set _, ?_, ?_, ?_⟩ <;> decide +kernel

theorem test_hyp_MuxReachesOneByte :
    ByteExists ten.phys (0#33).toNat (1#28).toNat ∧ (1 ≠ ({ shard := 0#33, access := .read 1#28 } : MuxAccess).shard.toNat) ∧
    (0 < 268435456 ∧ ¬ (0 = (0#33).toNat ∧ 0 = (1#28).toNat)) := by decide

theorem test_hyp_AccessorsTouchOneByteAtTheMux :
    Inv ten ∧ IsAccessor (.flip 9#64) 9#64 ∧ InWidth ten 9#64 ∧ InWidth ten 0#64 ∧
    IsAccessor (.test 10#64) 10#64 ∧ ¬ InWidth ten 10#64 ∧ ¬ InWidth ten (-1#64) :=
  ⟨test_inv_ten, .flip _, by decide +kernel, by decide +kernel, .test _, by decide +kernel, by decide +kernel⟩

/-- A state no run reaches: width 10, but no shard has a byte. -/
def broken : State := { ten with shardLen := [] }

theorem test_hyp_MuxGuardOfR52 :
    (Inv ten ∧ (addressDecoder 9#64 ten.width ten.shardCount).inRange = true) ∧
    (IsAccessor (.set 9#64) 9#64 ∧ 0 ≤ signed64 9#64 ∧ ¬ Allocated broken (shardOf (9#64).toNat) (byteOf (9#64).toNat)) :=
  ⟨⟨test_inv_ten, by decide +kernel⟩, .set _, by decide, by decide +kernel⟩

theorem test_hyp_OnlyAllocatedBytesAreAccessed :
    (Inv ten ∧ Allocated ten 0 1) ∧ (∃ x, x ∈ muxAccesses (.set 9#64) ten) ∧
    (∃ t, exec (.set 9#64) ten = .next t) ∧ (2 < 268435456 ∧ ¬ Allocated ten 0 2) :=
  ⟨⟨test_inv_ten, by decide +kernel⟩, ⟨{ shard := 0#33, access := .read 1#28 }, by decide +kernel⟩,
    exists_nextOf (by decide +kernel), by decide, by decide +kernel⟩

theorem test_hyp_CellOfEveryBitNumber : 6 < 8 ∧ 8 * 268435455 + 6 < 2147483647 := by decide

theorem test_hyp_ShardLengthsOfR24 :
    Inv twoShards ∧ 0 + 1 < twoShards.shardCount.toNat ∧ 1 + 1 = twoShards.shardCount.toNat :=
  ⟨test_inv_twoShards, by decide +kernel, by decide +kernel⟩

theorem test_hyp_NewConstructsTheVector :
    small.configured = false ∧ 0 ≤ signed64 8#64 ∧ ceilDiv (8#64).toNat 2147483647 ≤ small.phys.maxShards ∧
    ceilDiv (min 2147483647 (8#64).toNat) 8 ≤ small.phys.shardMemBytes ∧
    0 ≤ signed64 0#64 ∧ ceilDiv (0#64).toNat 2147483647 ≤ small.phys.maxShards ∧ (0#64).toNat = 0 := by decide +kernel

theorem test_hyp_NewErrorsInOrderChangeNothing :
    ten.configured = true ∧ small.configured = false ∧ signed64 0x8000000000000000#64 < 0 ∧ signed64 (-1#64) < 0 ∧
    (0 ≤ signed64 9#64 ∧ fits small.phys (9#64).toNat = false) ∧ (0 ≤ signed64 8#64 ∧ fits small.phys (8#64).toNat = true) := by
  decide +kernel

theorem test_hyp_ShardCountBoundsOfR92 : 9223372036854775807 < 9223372036854775808 := by decide

theorem test_hyp_AllocationFitsWhenEveryShardFits :
    small.configured = false ∧ 0 ≤ signed64 9#64 ∧ fits small.phys (9#64).toNat = false := by decide +kernel

theorem test_hyp_NewZeroHasNoShards : small.configured = false ∧ IsAccessor (.test 0#64) 0#64 := ⟨rfl, .test _⟩

theorem test_hyp_AllClearAfterConstruction :
    State.reset.configured = false ∧ (∃ t, exec (.new 10#64) State.reset = .next t ∧ t.configured = true) ∧
    0 ≤ signed64 9#64 ∧ signed64 9#64 < signed64 10#64 :=
  ⟨rfl, ⟨_, nextOf_eq (t := (nextOf (exec (.new 10#64) State.reset)).getD State.reset) (by decide +kernel), by decide +kernel⟩,
    by decide, by decide⟩

theorem test_hyp_ConstructedShapeNeverChanges :
    (tenSent 0x50000000000000003#68).configured = true ∧
    (tenSent 0x50000000000000003#68).inputs = .command 0x50000000000000003#68 :: [.reset] ∧
    ∃ t, step (tenSent 0x50000000000000003#68) = .next t ∧ t.storage.read 0 ≠ (tenSent 0x50000000000000003#68).storage.read 0 :=
  ⟨rfl, rfl, _, nextOf_eq (t := (nextOf (step (tenSent 0x50000000000000003#68))).getD State.reset) (by decide +kernel),
    by decide +kernel⟩

theorem test_hyp_ConfiguredOnlyByNew :
    (Inv small ∧ small.configured = false ∧ IsAccessor (.clear 0#64) 0#64) ∧
    (∃ t, exec (.new 8#64) small = .next t) ∧ ∃ t, ten.configured = true ∧ exec (.new 8#64) ten = .next t :=
  ⟨⟨test_inv_small, rfl, .clear _⟩, exists_nextOf (by decide +kernel),
    (exists_nextOf (by decide +kernel)).imp fun _ h => ⟨rfl, h⟩⟩

theorem test_hyp_SetOrsTheAddressedBit :
    (Inv ten ∧ InWidth ten 9#64) ∧ ¬ InWidth ten 10#64 ∧
    (Inv tenClear ∧ tenClear.width = 10#64 ∧ byteAt tenClear 0 0 = 0x00#8) :=
  ⟨⟨test_inv_ten, by decide +kernel⟩, by decide +kernel, test_inv_tenClear, by decide +kernel, by decide +kernel⟩

theorem test_hyp_ClearMasksTheAddressedBit :
    (Inv sixteen ∧ InWidth sixteen 15#64) ∧ ¬ InWidth sixteen 16#64 ∧
    (0 < sixteen.width.toNat ∧ byteAt sixteen 0 0 = 0b10000001#8) :=
  ⟨⟨test_inv_sixteen, by decide +kernel⟩, by decide +kernel, by decide +kernel, by decide +kernel⟩

theorem test_hyp_TestReturnsTheAddressedBit :
    (Inv ten ∧ InWidth ten 9#64) ∧ ¬ InWidth ten (-1#64) ∧
    (Inv tenClear ∧ tenClear.width = 10#64 ∧ byteAt tenClear 0 0 = 0x00#8 ∧ ∃ t, exec (.set 3#64) tenClear = .next t) :=
  ⟨⟨test_inv_ten, by decide +kernel⟩, by decide +kernel, test_inv_tenClear, by decide +kernel, by decide +kernel,
    exists_nextOf (by decide +kernel)⟩

theorem test_hyp_FlipXorsTheAddressedBit :
    (Inv ten ∧ InWidth ten 9#64) ∧ ¬ InWidth ten 10#64 ∧
    (Inv tenClear ∧ 7 < tenClear.width.toNat ∧ byteAt tenClear 0 0 = 0x00#8) :=
  ⟨⟨test_inv_ten, by decide +kernel⟩, by decide +kernel, test_inv_tenClear, by decide +kernel, by decide +kernel⟩

theorem test_hyp_OutOfRangeAccessorChangesNothing :
    IsAccessor (.set (-1#64)) (-1#64) ∧ signed64 (-1#64) < 0 ∧
    IsAccessor (.clear 10#64) 10#64 ∧ (ten.width.toNat : Int) ≤ signed64 10#64 :=
  ⟨.set _, by decide, .clear _, by decide +kernel⟩

theorem test_hyp_AccessorFootprint : Inv ten ∧ IsAccessor (.flip 9#64) 9#64 ∧ InWidth ten 9#64 ∧ 0 ≠ bitOf (9#64).toNat :=
  ⟨test_inv_ten, .flip _, by decide +kernel, by decide +kernel⟩

theorem test_hyp_TruthTableOfR132 : Inv ten ∧ InWidth ten 3#64 ∧ bitAt ten 3 = true ∧ InWidth ten 9#64 ∧ bitAt ten 9 = false :=
  ⟨test_inv_ten, by decide +kernel, by decide +kernel, by decide +kernel, by decide +kernel⟩

theorem test_hyp_SetClearRoundTrip : Inv ten ∧ InWidth ten 9#64 := ⟨test_inv_ten, by decide +kernel⟩

theorem test_hyp_NoCrossBitInterference :
    Inv ten ∧ IsAccessor (.set 2#64) 2#64 ∧ InWidth ten 2#64 ∧ InWidth ten 3#64 ∧ (2#64 : Arg) ≠ 3#64 :=
  ⟨test_inv_ten, .set _, by decide +kernel, by decide +kernel, by decide⟩

theorem test_hyp_DoubleFlipRestoresTheState : Inv ten ∧ InWidth ten 9#64 := ⟨test_inv_ten, by decide +kernel⟩

theorem test_hyp_SetClearTestAreIdempotent :
    Inv ten ∧ IsAccessor (.clear 3#64) 3#64 ∧ Instr.clear 3#64 ≠ .flip 3#64 ∧ InWidth ten 3#64 :=
  ⟨test_inv_ten, .clear _, by decide, by decide +kernel⟩

theorem test_hyp_AccessorsOnDifferentBitsCommute :
    Inv ten ∧ IsAccessor (.flip 3#64) 3#64 ∧ IsAccessor (.set 2#64) 2#64 ∧ InWidth ten 3#64 ∧ InWidth ten 2#64 ∧
    (3#64 : Arg) ≠ 2#64 :=
  ⟨test_inv_ten, .flip _, .set _, by decide +kernel, by decide +kernel, by decide⟩

end Sys2Proof.Machine
end

/-!
# The state and its invariant (10_state.md)

Facts about single bytes, about what a command and a step can do, and about the updates that keep the invariant; from
them the statements of the family.
-/

/-! ## Bytes, cells and the shape -/

namespace Sys2Proof.Machine

theorem byteOf_lt (b : Nat) : byteOf b < Config.shardBytesFull := by
  have : withinOf b < Config.shardBits := Nat.mod_lt _ (by decide)
  rw [shardBits_eq] at this
  rw [byteOf, shardBytesFull_eq]
  omega

/-- The shard index is recovered from a linear address (entry 6). -/
theorem byteAddr_div {j : Nat} (i : Nat) (hj : j < Config.shardBytesFull) : byteAddr i j / Config.shardBytesFull = i := by
  rw [byteAddr, Nat.mul_add_div (by decide), Nat.div_eq_of_lt hj, Nat.add_zero]

/-- The byte index is recovered from a linear address (entry 6). -/
theorem byteAddr_mod {j : Nat} (i : Nat) (hj : j < Config.shardBytesFull) : byteAddr i j % Config.shardBytesFull = j := by
  rw [byteAddr, Nat.mul_add_mod, Nat.mod_eq_of_lt hj]

/-- The decoder inverts the numbering of the cells (R25, R41). -/
theorem coordinates_bitNumber {i j k : Nat} (hk : k < 8) (h : 8 * j + k < Config.shardBits) :
    shardOf (bitNumber i j k) = i ∧ byteOf (bitNumber i j k) = j ∧ bitOf (bitNumber i j k) = k := by
  have hdiv : bitNumber i j k / Config.shardBits = i := by
    rw [bitNumber, Nat.add_assoc, Nat.mul_add_div (by decide), Nat.div_eq_of_lt h, Nat.add_zero]
  have hmod : bitNumber i j k % Config.shardBits = 8 * j + k := by
    rw [bitNumber, Nat.add_assoc, Nat.mul_add_mod, Nat.mod_eq_of_lt h]
  refine ⟨hdiv, ?_, ?_⟩
  · rw [byteOf, withinOf, hmod]; omega
  · rw [bitOf, withinOf, hmod]; omega

/-- Numbering the cell the decoder gives answers the bit number (R41). -/
theorem bitNumber_coordinates (b : Nat) : bitNumber (shardOf b) (byteOf b) (bitOf b) = b := by
  have := Nat.div_add_mod b Config.shardBits
  simp only [bitNumber, byteOf, bitOf, withinOf, shardOf]
  omega

/-- A bit number below the width addresses no padding bit (R27). -/
theorem not_isPadding_coordinates {w b : Nat} (h : b < w) : ¬ IsPadding w (shardOf b) (byteOf b) (bitOf b) := by
  have hlt : withinOf b < Config.shardBits := Nat.mod_lt _ (by decide)
  rw [IsPadding, bitNumber_coordinates, byteOf, bitOf]
  omega

theorem bytesNeeded_eq (w i : Nat) : bytesNeeded w i = ceilDiv (min 2147483647 (w - 2147483647 * i)) 8 := by
  rw [bytesNeeded, shardBits_eq]

/-- No shard is longer than the first one (R24). -/
theorem bytesNeeded_le_first (w i : Nat) : bytesNeeded w i ≤ bytesNeeded w 0 := by
  simp only [bytesNeeded, ceilDiv]
  omega

theorem fits_iff {p : Config.Params} {w : Nat} :
    fits p w = true ↔ shardsNeeded w ≤ p.maxShards ∧ (shardsNeeded w = 0 ∨ bytesNeeded w 0 ≤ p.shardMemBytes) := by
  simp [fits]

theorem shardsNeeded_zero : shardsNeeded 0 = 0 := by decide

theorem shardLenTable_zero : shardLenTable 0 = [] := rfl

theorem allocEnd_zero : allocEnd 0 = 0 := rfl

/-- A byte read comes from a cell that lists it, or from the background. -/
theorem read_cases (m : Memory) (a : Nat) : (a, m.read a) ∈ m.cells ∨ m.read a = m.unlisted a := by
  unfold Memory.read
  rcases h : lookupCell a m.cells with _ | v
  · exact .inr rfl
  · exact .inl (mem_of_lookupCell h)

/-! ## Bytes and allocation after the named updates -/

@[simp] theorem byteAt_respond (s : State) (st : Status) (r : Bool) (i j : Nat) : byteAt (s.respond st r) i j = byteAt s i j := rfl

theorem byteAt_setStorage_write (s : State) (a : Nat) (v : Byte) (i j : Nat) :
    byteAt (s.setStorage (s.storage.write a v)) i j = if byteAddr i j = a then v else byteAt s i j := by
  rw [byteAt, setStorage_storage, read_write, byteAt]

theorem byteAt_construct (w : Nat) (s : State) (i j : Nat) :
    byteAt (construct w s) i j = if byteAddr i j < allocEnd w then 0#8 else byteAt s i j := by
  rw [byteAt, construct_storage, read_zeroBelow, byteAt]

@[simp] theorem allocated_respond (s : State) (st : Status) (r : Bool) (i j : Nat) :
    Allocated (s.respond st r) i j ↔ Allocated s i j := Iff.rfl

@[simp] theorem allocated_setStorage (s : State) (m : Memory) (i j : Nat) :
    Allocated (s.setStorage m) i j ↔ Allocated s i j := by
  simp only [Allocated, setStorage_configured, setStorage_shardCount, setStorage_shardLen]

/-- After a construction exactly the bytes below the bound of the zeroing are allocated (R26, R53). -/
theorem allocated_construct {w : Nat} (s : State) {i j : Nat} (hw : w < 9223372036854775808) (hj : j < Config.shardBytesFull) :
    Allocated (construct w s) i j ↔ byteAddr i j < allocEnd w := by
  have hn : shardsNeeded w % 2 ^ 33 = shardsNeeded w :=
    Nat.mod_eq_of_lt (lt_of_le_of_lt (shardsNeeded_lt hw) (by norm_num))
  rw [byteAddr_lt_allocEnd w i j hj]
  simp only [Allocated, construct_configured, construct_shardCount, construct_shardLen, BitVec.toNat_ofNat, hn,
    shardLenAt_table, true_and]
  exact and_congr_right fun hi => by rw [if_pos hi]

theorem not_allocated_of_unconfigured {s : State} (h : s.configured = false) (i j : Nat) : ¬ Allocated s i j := by
  simp [Allocated, h]

/-! ## What a command can do -/

theorem modifyBit_of_outOfRange {f : Byte → Byte → Byte} {arg : Arg} {s : State} (h : frontEnd arg s = .outOfRange) :
    modifyBit f arg s = .next (s.respond .outOfRange false) := by
  rw [modifyBit, h]; rfl

theorem modifyBit_of_stopped {f : Byte → Byte → Byte} {arg : Arg} {s : State} {e : Fault} (h : frontEnd arg s = .stopped e) :
    modifyBit f arg s = .fault e := by
  rw [modifyBit, h]

theorem readBit_of_outOfRange {arg : Arg} {s : State} (h : frontEnd arg s = .outOfRange) :
    readBit arg s = .next (s.respond .outOfRange false) := by
  rw [readBit, h]; rfl

theorem readBit_of_stopped {arg : Arg} {s : State} {e : Fault} (h : frontEnd arg s = .stopped e) :
    readBit arg s = .fault e := by
  rw [readBit, h]

theorem readBit_of_hit {arg : Arg} {s : State} {i : ShardIdx} {j : ByteIdx} {k : BitOff} {old : Byte}
    (h : frontEnd arg s = .hit i j k old) : readBit arg s = .next (s.respond .ok (testedBit old k)) := by
  rw [readBit, h]

/-- SET, CLEAR or FLIP of the bit number `b`, with what it makes of a byte and the mask of a bit. -/
inductive Rewrites : Instr → Arg → (Byte → Byte → Byte) → Prop where
  | set (b : Arg) : Rewrites (.set b) b setByte
  | clear (b : Arg) : Rewrites (.clear b) b clearByte
  | flip (b : Arg) : Rewrites (.flip b) b flipByte

theorem Rewrites.exec_eq {i : Instr} {b : Arg} {f : Byte → Byte → Byte} (h : Rewrites i b f) (s : State) :
    exec i s = modifyBit f b s := by
  cases h <;> rfl

theorem exec_test (b : Arg) (s : State) : exec (.test b) s = readBit b s := rfl

theorem exec_new (w : Arg) (s : State) : exec (.new w) s = execNew w s := rfl

theorem Rewrites.muxAccesses_eq {i : Instr} {b : Arg} {f : Byte → Byte → Byte} (h : Rewrites i b f) (s : State) :
    muxAccesses i s = rewriteAccesses f b s := by
  cases h <;> rfl

/-- A rewriting accessor leaves every bit of the byte but the masked one (R131). -/
theorem Rewrites.getLsbD_of_ne {i : Instr} {b : Arg} {f : Byte → Byte → Byte} (h : Rewrites i b f) (x : Byte) {k : BitOff}
    {n : Nat} (hn : n < 8) (hne : n ≠ k.toNat) : (f x (bitMask k)).getLsbD n = x.getLsbD n := by
  cases h with
  | set => rw [setByte_getLsbD x k n hn, if_neg hne]
  | clear => rw [clearByte_getLsbD x k n hn, if_neg hne]
  | flip => rw [flipByte_getLsbD x k n hn, if_neg hne]

/-- A command is NEW, TEST or one of the three rewriting accessors. -/
theorem instr_cases (i : Instr) : (∃ w, i = .new w) ∨ (∃ b, i = .test b) ∨ ∃ b f, Rewrites i b f := by
  cases i with
  | new w => exact .inl ⟨w, rfl⟩
  | test b => exact .inr (.inl ⟨b, rfl⟩)
  | set b => exact .inr (.inr ⟨b, _, .set b⟩)
  | clear b => exact .inr (.inr ⟨b, _, .clear b⟩)
  | flip b => exact .inr (.inr ⟨b, _, .flip b⟩)

theorem IsAccessor.cases {i : Instr} {b : Arg} (h : IsAccessor i b) : i = .test b ∨ ∃ f, Rewrites i b f := by
  cases h with
  | test => exact .inl rfl
  | set => exact .inr ⟨_, .set b⟩
  | clear => exact .inr ⟨_, .clear b⟩
  | flip => exact .inr ⟨_, .flip b⟩

/-- What a command that answers a next state has done: it was refused, it returned a bit, it rewrote the addressed byte,
or it constructed the vector. -/
inductive CommandEffect (i : Instr) (s : State) : State → Prop where
  | refused {st : Status} (hst : st ≠ .ok) : CommandEffect i s (s.respond st false)
  | tested {b : Arg} {x : ShardIdx} {y : ByteIdx} {k : BitOff} {old : Byte} (hi : i = .test b)
      (hhit : frontEnd b s = .hit x y k old) : CommandEffect i s (s.respond .ok (testedBit old k))
  | rewrote {b : Arg} {f : Byte → Byte → Byte} {x : ShardIdx} {y : ByteIdx} {k : BitOff} {old : Byte} (hi : Rewrites i b f)
      (hhit : frontEnd b s = .hit x y k old) :
      CommandEffect i s ((s.setStorage (s.storage.write (byteAddr (shardOf b.toNat) (byteOf b.toNat))
        (f old (bitMask k)))).respond .ok false)
  | constructed {w : Arg} (hi : i = .new w) (hc : s.configured = false) (hw : 0 ≤ signed64 w)
      (hfits : fits s.phys (signed64 w).toNat = true) :
      CommandEffect i s ((construct (signed64 w).toNat s).respond .ok false)

theorem exec_next {i : Instr} {s t : State} (h : exec i s = .next t) : CommandEffect i s t := by
  rcases instr_cases i with ⟨w, rfl⟩ | ⟨b, rfl⟩ | ⟨b, f, hf⟩
  · rw [exec_new] at h
    rcases execNew_cases w s with ⟨-, he⟩ | ⟨-, -, he⟩ | ⟨-, -, -, he⟩ | ⟨hc, hw, hfits, he⟩ <;>
      obtain rfl := Host.Outcome.next.inj (he.symm.trans h)
    · exact .refused (by decide)
    · exact .refused (by decide)
    · exact .refused (by decide)
    · exact .constructed rfl hc hw hfits
  · rw [exec_test] at h
    rcases readBit_next h with ⟨-, rfl⟩ | ⟨_, _, _, _, hhit, rfl⟩
    · exact .refused (by decide)
    · exact .tested rfl hhit
  · rw [hf.exec_eq] at h
    rcases modifyBit_next h with ⟨-, rfl⟩ | ⟨_, _, _, _, hhit, rfl⟩
    · exact .refused (by decide)
    · exact .rewrote hf hhit

/-- An accessor of a bit number outside `[0, width)` is refused and changes nothing (R124). -/
theorem exec_outOfRange {i : Instr} {b : Arg} {s : State} (hi : IsAccessor i b) (h : ¬ InWidth s b) :
    exec i s = .next (s.respond .outOfRange false) := by
  have hfe := frontEnd_outOfRange h
  rcases hi.cases with rfl | ⟨f, hf⟩
  · rw [exec_test, readBit_of_outOfRange hfe]
  · rw [hf.exec_eq, modifyBit_of_outOfRange hfe]

/-- The width a NEW takes stays below `2^63`, so no register truncates it (R92). -/
theorem toNat_signed64_lt (w : Arg) : (signed64 w).toNat < 9223372036854775808 := by
  have := w.isLt
  unfold signed64
  split <;> omega

/-! ## What a step does -/

theorem step_idle {s : State} (h : s.inputs = []) : step s = .next s := by
  rw [step_eq, h]

theorem step_reset {s : State} {rest : List HostInput} (h : s.inputs = .reset :: rest) :
    step s = .next (resetBlock { s with inputs := rest }) := by
  rw [step_eq, h]

theorem step_resetDuring {s : State} {w : CommandWord} {rest : List HostInput} (h : s.inputs = .resetDuring w :: rest) :
    step s = .next (resetBlock { s with inputs := rest }) := by
  rw [step_eq, h]

theorem step_command {s : State} {w : CommandWord} {rest : List HostInput} {i : Instr} (h : s.inputs = .command w :: rest)
    (hd : decode w = .ok i) : step s = exec i { s with inputs := rest } := by
  rw [step_eq, h]; dsimp only; rw [hd]

theorem step_reserved {s : State} {w : CommandWord} {rest : List HostInput} {e : DecodeError}
    (h : s.inputs = .command w :: rest) (hd : decode w = .error e) :
    step s = .next (({ s with inputs := rest } : State).respond .reservedOp false) := by
  rw [step_eq, h]; dsimp only; rw [hd]

/-! ## The invariant: what it says of single bytes -/

theorem Inv.shardLenAt_eq {s : State} (h : Inv s) (i : Nat) :
    (shardLenAt s.shardLen i).toNat = if i < s.shardCount.toNat then bytesNeeded s.width.toNat i else 0 := by
  rw [h.shardLen_eq, shardLenAt_table, h.shardCount_eq]

/-- An allocated byte lies below the bound of the zeroing, at an index a shard memory can have (R26). -/
theorem Inv.byteAddr_lt_of_allocated {s : State} (h : Inv s) {i j : Nat} (ha : Allocated s i j) :
    j < Config.shardBytesFull ∧ byteAddr i j < allocEnd s.width.toNat := by
  obtain ⟨-, hi, hj⟩ := ha
  rw [h.shardLenAt_eq, if_pos hi] at hj
  have hfull : j < Config.shardBytesFull := lt_of_lt_of_le hj (bytesNeeded_le _ _)
  exact ⟨hfull, (byteAddr_lt_allocEnd _ _ _ hfull).2 ⟨h.shardCount_eq ▸ hi, hj⟩⟩

/-- R26: physical memory holds every allocated byte. -/
theorem Inv.byteExists_of_allocated {s : State} (h : Inv s) {i j : Nat} (ha : Allocated s i j) : ByteExists s.phys i j := by
  obtain ⟨-, hi, hj⟩ := ha
  obtain ⟨hcount, hlen⟩ := fits_iff.1 h.fits_phys
  rw [h.shardLenAt_eq, if_pos hi] at hj
  rw [h.shardCount_eq] at hi
  have := bytesNeeded_le_first s.width.toNat i
  exact ⟨by omega, by omega⟩

/-- Padding bits read as 0 in every byte below the bound of the zeroing, listed or not (R27). -/
theorem Inv.read_padding {s : State} (h : Inv s) {i j k : Nat} (hj : j < Config.shardBytesFull)
    (ha : byteAddr i j < allocEnd s.width.toNat) (hk : k < 8) (hp : IsPadding s.width.toNat i j k) :
    (s.storage.read (byteAddr i j)).getLsbD k = false := by
  rcases read_cases s.storage (byteAddr i j) with hmem | hun
  · refine h.padding_clear _ hmem k hk ?_
    rwa [byteAddr_div i hj, byteAddr_mod i hj]
  · rw [hun, Memory.unlisted, h.zeroed_eq, if_pos ha]
    simp

theorem Inv.unconfigured_shardCount {s : State} (h : Inv s) (hc : s.configured = false) : s.shardCount = 0#33 := by
  apply BitVec.eq_of_toNat_eq
  rw [h.shardCount_eq, h.unconfigured_width hc]
  exact shardsNeeded_zero

/-! ## The invariant: what establishes and keeps it -/

/-- A state with its registers at their reset values and nothing written meets the invariant (R34). -/
theorem inv_of_cleared {s : State} (hphys : s.phys.legal) (hwidth : s.width = 0#64) (hcount : s.shardCount = 0#33)
    (hlen : s.shardLen = []) (hzeroed : s.storage.zeroedBelow = 0) (hcells : s.storage.cells = [])
    (hresp : ∀ r ∈ s.responses, r ∈ legalResponses) : Inv s := by
  have hw : s.width.toNat = 0 := by rw [hwidth]; rfl
  constructor
  case phys_legal => exact hphys
  case unconfigured_width => exact fun _ => hwidth
  case width_lt => omega
  case shardCount_eq => rw [hw, hcount, shardsNeeded_zero]; rfl
  case shardLen_eq => rw [hw, hlen, shardLenTable_zero]
  case fits_phys => rw [hw, fits_iff, shardsNeeded_zero]; exact ⟨Nat.zero_le _, .inl rfl⟩
  case zeroed_eq => rw [hw, hzeroed, allocEnd_zero]
  case storage_wf => simp [Memory.wf, hcells]
  case cells_allocated => simp [hcells]
  case padding_clear => simp [hcells]
  case responses_legal => exact hresp

theorem inv_resetWith {p : Config.Params} (h : p.legal) : Inv (State.resetWith p) :=
  inv_of_cleared h rfl rfl rfl rfl rfl (by simp [State.resetWith])

theorem inv_resetBlock {s : State} (h : Inv s) : Inv (resetBlock s) :=
  inv_of_cleared h.phys_legal rfl rfl rfl rfl rfl h.responses_legal

/-- A construction on an unconfigured block: nothing was listed, so the new vector is all zeros (R93). -/
theorem inv_construct {s : State} {w : Nat} (h : Inv s) (hc : s.configured = false) (hw : w < 9223372036854775808)
    (hfits : fits s.phys w = true) : Inv (construct w s) := by
  have hw0 : s.width.toNat = 0 := by rw [h.unconfigured_width hc]; rfl
  have hwidth : (construct w s).width.toNat = w := by
    rw [construct_width, BitVec.toNat_ofNat]; omega
  have hcount := shardsNeeded_lt hw
  have hcells : (construct w s).storage.cells = [] := by
    rw [construct_storage, zeroBelow_cells, List.filter_eq_nil_iff]
    intro c hmem
    have := h.cells_allocated c hmem
    rw [hw0, allocEnd_zero] at this
    omega
  constructor
  case phys_legal => exact h.phys_legal
  case unconfigured_width => simp
  case width_lt => rwa [hwidth]
  case shardCount_eq => rw [hwidth, construct_shardCount, BitVec.toNat_ofNat]; omega
  case shardLen_eq => rw [hwidth, construct_shardLen]
  case fits_phys => rwa [hwidth, construct_phys]
  case zeroed_eq =>
    rw [hwidth, construct_storage, zeroBelow_zeroedBelow, h.zeroed_eq, hw0, allocEnd_zero, Nat.zero_max]
  case storage_wf => rw [construct_storage]; exact zeroBelow_wf h.storage_wf _
  case cells_allocated => simp only [hcells, List.not_mem_nil, false_implies, implies_true]
  case padding_clear => simp only [hcells, List.not_mem_nil, false_implies, implies_true]
  case responses_legal => exact h.responses_legal

/-- Rewriting the addressed bit keeps the invariant: the byte is allocated, and the bit is no padding bit (R35 item 4). -/
theorem inv_rewrite {s : State} {i : Instr} {b : Arg} {f : Byte → Byte → Byte} {x : ShardIdx} {y : ByteIdx} {k : BitOff}
    {old : Byte} (h : Inv s) (hi : Rewrites i b f) (hhit : frontEnd b s = .hit x y k old) :
    Inv (s.setStorage (s.storage.write (byteAddr (shardOf b.toNat) (byteOf b.toNat)) (f old (bitMask k)))) := by
  obtain ⟨-, hlt, -, -, hk, halloc, -, rfl⟩ := frontEnd_hit hhit
  obtain ⟨hj, haddr⟩ := h.byteAddr_lt_of_allocated halloc
  refine inv_setStorage h _ (write_zeroedBelow ..) (write_wf h.storage_wf ..) (fun c hc => ?_) (fun c hc => ?_)
  · rcases mem_write_cells hc with hc | rfl
    · exact h.cells_allocated c hc
    · exact haddr
  · rcases mem_write_cells hc with hc | rfl
    · exact h.padding_clear c hc
    · intro n hn hp
      rw [byteAddr_div _ hj, byteAddr_mod _ hj] at hp
      have hne : n ≠ k.toNat := by
        rintro rfl
        exact not_isPadding_coordinates hlt (hk ▸ hp)
      rw [hi.getLsbD_of_ne _ hn hne]
      exact h.read_padding hj haddr hn hp

theorem inv_exec {s t : State} {i : Instr} (h : Inv s) (he : exec i s = .next t) : Inv t := by
  cases exec_next he with
  | refused => exact inv_respond h (by simp)
  | tested => exact inv_respond h (by simp)
  | rewrote hi hhit => exact inv_respond (inv_rewrite h hi hhit) (by simp)
  | constructed _ hc _ hfits => exact inv_respond (inv_construct h hc (toNat_signed64_lt _) hfits) (by simp)

theorem inv_step {s t : State} (h : Inv s) (hs : step s = .next t) : Inv t := by
  rcases hin : s.inputs with _ | ⟨input, rest⟩
  · rw [step_idle hin] at hs
    exact Host.Outcome.next.inj hs ▸ h
  have hrest : Inv { s with inputs := rest } := inv_inputs h rest
  cases input with
  | reset =>
    rw [step_reset hin] at hs
    exact Host.Outcome.next.inj hs ▸ inv_resetBlock hrest
  | resetDuring w =>
    rw [step_resetDuring hin] at hs
    exact Host.Outcome.next.inj hs ▸ inv_resetBlock hrest
  | command w =>
    rcases hd : decode w with e | i
    · rw [step_reserved hin hd] at hs
      exact Host.Outcome.next.inj hs ▸ inv_respond hrest (by simp)
    · rw [step_command hin hd] at hs
      exact inv_exec hrest hs

/-- What holds before a run of a machine and is kept by every step of it holds after the run. -/
theorem run_induction {M : Host.Core} {P : M.State → Prop} (hstep : ∀ s t, P s → M.step s = .next t → P t) {n : Nat}
    {s t : M.State} (h : P s) (hrun : M.run n s = .next t) : P t := by
  induction n generalizing s with
  | zero => exact Host.Outcome.next.inj hrun ▸ h
  | succ n ih =>
    rw [Host.Core.run] at hrun
    split at hrun
    · next s' hs => exact ih (hstep s s' h hs) hrun
    · cases hrun
    · cases hrun

/-- The invariant holds after every run from a state that meets it (R35). -/
theorem inv_run {n : Nat} {s t : State} (h : Inv s) (hrun : Host.Core.run Sys2Proof.core n s = .next t) : Inv t :=
  run_induction (M := Sys2Proof.core) (P := Inv) (fun _ _ => inv_step) h hrun

/-! ## States that differ only in unallocated bytes -/

namespace SameButUnallocated

variable {s t : State}

theorem allocated_iff (h : SameButUnallocated s t) (i j : Nat) : Allocated t i j ↔ Allocated s i j := by
  simp only [Allocated, h.configured_eq, h.shardCount_eq, h.shardLen_eq]

theorem withInputs (h : SameButUnallocated s t) (xs : List HostInput) :
    SameButUnallocated { s with inputs := xs } { t with inputs := xs } :=
  { h with inputs_eq := rfl }

theorem withResponse (h : SameButUnallocated s t) (st : Status) (r : Bool) :
    SameButUnallocated (s.respond st r) (t.respond st r) :=
  { h with responses_eq := by rw [respond_responses, respond_responses, h.responses_eq] }

/-- After a reset pulse no byte is allocated, so the storages may differ anywhere (R34). -/
theorem withReset (h : SameButUnallocated s t) : SameButUnallocated (resetBlock s) (resetBlock t) where
  phys_eq := h.phys_eq
  configured_eq := rfl
  width_eq := rfl
  shardCount_eq := rfl
  shardLen_eq := rfl
  inputs_eq := h.inputs_eq
  responses_eq := h.responses_eq
  bytes_eq i j _ ha := absurd ha (not_allocated_of_unconfigured rfl i j)

/-- A construction zeroes every byte that it allocates, whatever the byte held (R53). -/
theorem withConstruction (h : SameButUnallocated s t) {w : Nat} (hw : w < 9223372036854775808) :
    SameButUnallocated (construct w s) (construct w t) where
  phys_eq := h.phys_eq
  configured_eq := rfl
  width_eq := rfl
  shardCount_eq := rfl
  shardLen_eq := rfl
  inputs_eq := h.inputs_eq
  responses_eq := h.responses_eq
  bytes_eq i j hj ha := by
    have haddr := (allocated_construct s hw hj).1 ha
    rw [byteAt_construct, byteAt_construct, if_pos haddr, if_pos haddr]

theorem withWrite (h : SameButUnallocated s t) (a : Nat) (v : Byte) :
    SameButUnallocated (s.setStorage (s.storage.write a v)) (t.setStorage (t.storage.write a v)) where
  phys_eq := by simp only [setStorage_phys, h.phys_eq]
  configured_eq := by simp only [setStorage_configured, h.configured_eq]
  width_eq := by simp only [setStorage_width, h.width_eq]
  shardCount_eq := by simp only [setStorage_shardCount, h.shardCount_eq]
  shardLen_eq := by simp only [setStorage_shardLen, h.shardLen_eq]
  inputs_eq := by simp only [setStorage_inputs, h.inputs_eq]
  responses_eq := by simp only [setStorage_responses, h.responses_eq]
  bytes_eq i j hj ha := by
    rw [byteAt_setStorage_write, byteAt_setStorage_write, h.bytes_eq i j hj ((allocated_setStorage ..).1 ha)]

/-- The front end reads only an allocated byte, and so answers the same in both states (R52). -/
theorem frontEnd_eq (h : SameButUnallocated s t) (b : Arg) : frontEnd b t = frontEnd b s := by
  simp only [frontEnd, h.width_eq, h.shardCount_eq, h.allocated_iff, memRead_eq, h.phys_eq]
  split
  · rfl
  split
  · rfl
  next ha =>
    have hread := h.bytes_eq _ _ (addressDecoder b s.width s.shardCount).byteIdx.isLt (not_not.1 ha)
    rw [byteAt, byteAt] at hread
    rw [hread]

end SameButUnallocated

/-- Two answers that no observer of the registers, the ports and the allocated bytes can tell apart. -/
def SameAnswer (p q : Result) : Prop :=
  (∃ s' t', p = .next s' ∧ q = .next t' ∧ SameButUnallocated s' t') ∨ ∃ f, p = .fault f ∧ q = .fault f

theorem SameAnswer.next {s t : State} (h : SameButUnallocated s t) : SameAnswer (.next s) (.next t) :=
  .inl ⟨s, t, rfl, rfl, h⟩

theorem SameAnswer.fault (f : Fault) : SameAnswer (.fault f) (.fault f) := .inr ⟨f, rfl, rfl⟩

theorem sameAnswer_modifyBit {s t : State} (h : SameButUnallocated s t) (f : Byte → Byte → Byte) (b : Arg) :
    SameAnswer (modifyBit f b s) (modifyBit f b t) := by
  have ht := h.frontEnd_eq b
  rcases hs : frontEnd b s with _ | e | ⟨i, j, k, old⟩ <;> rw [hs] at ht
  · rw [modifyBit_of_outOfRange hs, modifyBit_of_outOfRange ht]
    exact .next (h.withResponse ..)
  · rw [modifyBit_of_stopped hs, modifyBit_of_stopped ht]
    exact .fault e
  · rw [modifyBit_of_hit hs, modifyBit_of_hit ht]
    exact .next ((h.withWrite ..).withResponse ..)

theorem sameAnswer_readBit {s t : State} (h : SameButUnallocated s t) (b : Arg) : SameAnswer (readBit b s) (readBit b t) := by
  have ht := h.frontEnd_eq b
  rcases hs : frontEnd b s with _ | e | ⟨i, j, k, old⟩ <;> rw [hs] at ht
  · rw [readBit_of_outOfRange hs, readBit_of_outOfRange ht]
    exact .next (h.withResponse ..)
  · rw [readBit_of_stopped hs, readBit_of_stopped ht]
    exact .fault e
  · rw [readBit_of_hit hs, readBit_of_hit ht]
    exact .next (h.withResponse ..)

theorem sameAnswer_execNew {s t : State} (h : SameButUnallocated s t) (w : Arg) : SameAnswer (execNew w s) (execNew w t) := by
  rw [execNew, execNew, h.configured_eq, h.phys_eq]
  split
  · exact .next (h.withResponse ..)
  split
  · exact .next (h.withResponse ..)
  split
  · exact .next (h.withResponse ..)
  · exact .next ((h.withConstruction (toNat_signed64_lt w)).withResponse ..)

theorem sameAnswer_exec {s t : State} (h : SameButUnallocated s t) (i : Instr) : SameAnswer (exec i s) (exec i t) := by
  rcases instr_cases i with ⟨w, rfl⟩ | ⟨b, rfl⟩ | ⟨b, f, hf⟩
  · exact sameAnswer_execNew h w
  · exact sameAnswer_readBit h b
  · rw [hf.exec_eq, hf.exec_eq]
    exact sameAnswer_modifyBit h f b

theorem sameAnswer_step {s t : State} (h : SameButUnallocated s t) : SameAnswer (step s) (step t) := by
  have ht := h.inputs_eq
  rcases hs : s.inputs with _ | ⟨input, rest⟩ <;> rw [hs] at ht
  · rw [step_idle hs, step_idle ht]
    exact .next h
  have hrest := h.withInputs rest
  cases input with
  | reset =>
    rw [step_reset hs, step_reset ht]
    exact .next hrest.withReset
  | resetDuring w =>
    rw [step_resetDuring hs, step_resetDuring ht]
    exact .next hrest.withReset
  | command w =>
    rcases hd : decode w with e | i
    · rw [step_reserved hs hd, step_reserved ht hd]
      exact .next (hrest.withResponse ..)
    · rw [step_command hs hd, step_command ht hd]
      exact sameAnswer_exec hrest i

end Sys2Proof.Machine

/-! ## The statements of the family -/

namespace Sys2Proof.Machine

/-- Settles O3: the invariant passes through each case of a step, and through each effect of a command. -/
theorem everyStepKeepsTheInvariant : Obligations.EveryStepKeepsTheInvariant :=
  fun _ _ => inv_step

/-- R24 from the invariant: the rule's formula for every register. -/
theorem Inv.shardLenAt_formula {s : State} (h : Inv s) (i : Nat) :
    (shardLenAt s.shardLen i).toNat =
      if i < s.shardCount.toNat then ceilDiv (min 2147483647 (s.width.toNat - 2147483647 * i)) 8 else 0 := by
  rw [h.shardLenAt_eq, bytesNeeded_eq]

/-- R35 items 2 and 3: no length is more than a shard memory has. -/
theorem Inv.shardLenAt_le {s : State} (h : Inv s) (i : Nat) : (shardLenAt s.shardLen i).toNat ≤ s.phys.shardMemBytes := by
  obtain ⟨-, hlen⟩ := fits_iff.1 h.fits_phys
  have := bytesNeeded_le_first s.width.toNat i
  rw [h.shardLenAt_eq, h.shardCount_eq]
  split <;> omega

/-- R35 item 1, with the lengths: an unconfigured block has all its registers at 0. -/
theorem Inv.unconfigured_registers {s : State} (h : Inv s) (hc : s.configured = false) :
    s.width = 0#64 ∧ s.shardCount = 0#33 ∧ ∀ i, shardLenAt s.shardLen i = 0#29 := by
  have hwidth := h.unconfigured_width hc
  refine ⟨hwidth, h.unconfigured_shardCount hc, fun i => ?_⟩
  rw [h.shardLen_eq, hwidth]
  rfl

/-- R35 item 4: every padding bit of an allocated byte is 0. -/
theorem Inv.byteAt_padding {s : State} (h : Inv s) {i j k : Nat} (ha : Allocated s i j) (hk : k < 8)
    (hp : IsPadding s.width.toNat i j k) : (byteAt s i j).getLsbD k = false := by
  obtain ⟨hj, haddr⟩ := h.byteAddr_lt_of_allocated ha
  exact h.read_padding hj haddr hk hp

/-- R35 item 5: the width denotes itself. -/
theorem Inv.signed64_width {s : State} (h : Inv s) : signed64 s.width = (s.width.toNat : Int) := by
  rw [signed64, if_pos h.width_lt]

/-- Settles O4: the invariant holds at reset whatever is to be sent, every step keeps it, and it gives the five items. -/
theorem reachableStatesSatisfyRuleR35 : Obligations.ReachableStatesSatisfyRuleR35 := by
  intro p ins n s hp hrun
  have h : Inv s := inv_run (inv_inputs (inv_resetWith hp) ins) hrun
  have hcount : s.shardCount.toNat = ceilDiv s.width.toNat 2147483647 := h.shardCount_eq
  have hfits : s.shardCount.toNat ≤ s.phys.maxShards := h.shardCount_eq ▸ (fits_iff.1 h.fits_phys).1
  have hwidth := h.width_lt
  refine ⟨h.unconfigured_registers, ⟨hcount, hfits⟩, fun i => ⟨h.shardLenAt_formula i, h.shardLenAt_le i⟩,
    fun i j k => h.byteAt_padding, ?_⟩
  rw [h.signed64_width]
  omega

/-- Settles O12: the front end reads only allocated bytes, and NEW zeroes what it allocates. -/
theorem unallocatedBytesAreNeverObserved : Obligations.UnallocatedBytesAreNeverObserved :=
  fun _ _ => sameAnswer_step

/-- An access of a hit front end goes to an allocated byte (R52). -/
theorem allocated_of_frontEnd_hit {b : Arg} {s : State} {i : ShardIdx} {j : ByteIdx} {k : BitOff} {old : Byte}
    (h : frontEnd b s = .hit i j k old) : Allocated s i.toNat j.toNat := by
  obtain ⟨-, -, hi, hj, -, halloc, -, -⟩ := frontEnd_hit h
  rwa [hi, hj]

theorem mem_readAccesses {b : Arg} {s : State} {x : MuxAccess} (h : x ∈ readAccesses b s) :
    ∃ i j k old, frontEnd b s = .hit i j k old ∧ x = { shard := i, access := .read j } := by
  unfold readAccesses at h
  split at h
  · next i j k old hhit => exact ⟨i, j, k, old, hhit, List.mem_singleton.1 h⟩
  · cases h
  · cases h

theorem mem_rewriteAccesses {f : Byte → Byte → Byte} {b : Arg} {s : State} {x : MuxAccess} (h : x ∈ rewriteAccesses f b s) :
    ∃ i j k old, frontEnd b s = .hit i j k old ∧
      (x = { shard := i, access := .read j } ∨ x = { shard := i, access := .write j (f old (bitMask k)) }) := by
  unfold rewriteAccesses at h
  split at h
  · next i j k old hhit => exact ⟨i, j, k, old, hhit, by simpa using h⟩
  · cases h
  · cases h

/-- Every access at the mux goes to an allocated byte (R26, R52). -/
theorem allocated_of_mem_muxAccesses {s : State} {i : Instr} {x : MuxAccess} (h : x ∈ muxAccesses i s) :
    ∃ j : ByteIdx, (x.access = .read j ∨ ∃ v, x.access = .write j v) ∧ Allocated s x.shard.toNat j.toNat := by
  rcases instr_cases i with ⟨w, rfl⟩ | ⟨b, rfl⟩ | ⟨b, f, hf⟩
  · cases h
  · obtain ⟨_, j, _, _, hhit, rfl⟩ := mem_readAccesses h
    exact ⟨j, .inl rfl, allocated_of_frontEnd_hit hhit⟩
  · rw [hf.muxAccesses_eq] at h
    obtain ⟨_, j, _, _, hhit, rfl | rfl⟩ := mem_rewriteAccesses h
    · exact ⟨j, .inl rfl, allocated_of_frontEnd_hit hhit⟩
    · exact ⟨j, .inr ⟨_, rfl⟩, allocated_of_frontEnd_hit hhit⟩

/-- R26: a byte not allocated after a command is as it was before it. -/
theorem byteAt_of_not_allocated {s t : State} {i : Instr} {x y : Nat} (he : exec i s = .next t)
    (hy : y < Config.shardBytesFull) (ha : ¬ Allocated t x y) : byteAt t x y = byteAt s x y := by
  cases exec_next he with
  | refused => rfl
  | tested => rfl
  | @rewrote b _ _ _ _ _ _ hhit =>
    obtain ⟨-, -, -, -, -, halloc, -, -⟩ := frontEnd_hit hhit
    rw [allocated_respond, allocated_setStorage] at ha
    have hne : byteAddr x y ≠ byteAddr (shardOf b.toNat) (byteOf b.toNat) := fun heq => by
      obtain ⟨rfl, rfl⟩ := byteAddr_inj hy (byteOf_lt _) heq
      exact ha halloc
    rw [byteAt_respond, byteAt_setStorage_write, if_neg hne]
  | constructed =>
    rw [allocated_respond, allocated_construct s (toNat_signed64_lt _) hy] at ha
    rw [byteAt_respond, byteAt_construct, if_neg ha]

/-- Settles O24, one lemma for each of its three clauses. -/
theorem onlyAllocatedBytesAreAccessed : Obligations.OnlyAllocatedBytesAreAccessed :=
  ⟨fun _ _ _ h => h.byteExists_of_allocated, fun _ _ _ => allocated_of_mem_muxAccesses,
    fun _ _ _ _ _ => byteAt_of_not_allocated⟩

/-- Settles O26: the registers hold the formula, whose value is the full length before the last shard. -/
theorem shardLengthsOfR24 : Obligations.ShardLengthsOfR24 := by
  intro s h
  have hcount := h.shardCount_eq
  refine ⟨h.shardLenAt_formula, fun i hi => ?_, fun i hi => ?_⟩
  · rw [h.shardLenAt_eq, if_pos (by omega), bytesNeeded_full (by omega)]
  · have hlt : i < s.shardCount.toNat := by omega
    have hpos : 0 < bytesNeeded s.width.toNat i := bytesNeeded_pos (by omega)
    have hrest : s.width.toNat - 2147483647 * i ≤ 2147483647 := by
      rw [hcount, shardsNeeded, ceilDiv, shardBits_eq] at hi
      omega
    refine ⟨?_, ?_, ?_⟩
    · rw [h.shardLenAt_formula, if_pos hlt, Nat.min_eq_right hrest]
    · rwa [h.shardLenAt_eq, if_pos hlt]
    · rw [h.shardLenAt_eq, if_pos hlt]
      exact bytesNeeded_le _ _

/-- A command on a configured block changes no register (R36). -/
theorem sameRegisters_exec {s t : State} {i : Instr} (hc : s.configured = true) (he : exec i s = .next t) :
    SameRegisters s t := by
  cases exec_next he with
  | refused => exact ⟨rfl, rfl, rfl, rfl, rfl⟩
  | tested => exact ⟨rfl, rfl, rfl, rfl, rfl⟩
  | rewrote => constructor <;> simp
  | constructed _ hu => rw [hc] at hu; cases hu

/-- On a configured block a command changes only the byte that a rewriting accessor addresses (R36). -/
theorem rewrites_of_read_ne {s t : State} {i : Instr} (hc : s.configured = true) (he : exec i s = .next t) {a : Nat}
    (hne : t.storage.read a ≠ s.storage.read a) :
    ∃ b f, Rewrites i b f ∧ a = byteAddr (shardOf b.toNat) (byteOf b.toNat) := by
  cases exec_next he with
  | refused => exact absurd rfl hne
  | tested => exact absurd rfl hne
  | rewrote hi =>
    refine ⟨_, _, hi, ?_⟩
    by_contra ha
    rw [respond_storage, setStorage_storage, read_write, if_neg ha] at hne
    exact hne rfl
  | constructed _ hu => rw [hc] at hu; cases hu

/-- Settles O33: a reserved word changes nothing; a command, no register and at most the byte it rewrites. -/
theorem constructedShapeNeverChanges : Obligations.ConstructedShapeNeverChanges := by
  intro s t w rest hc hin hs
  rcases hd : decode w with e | i
  · rw [step_reserved hin hd] at hs
    obtain rfl := Host.Outcome.next.inj hs
    exact ⟨⟨rfl, rfl, rfl, rfl, rfl⟩, fun a hne => absurd rfl hne⟩
  · rw [step_command hin hd] at hs
    obtain ⟨h1, h2, h3, h4, h5⟩ := sameRegisters_exec (s := { s with inputs := rest }) hc hs
    refine ⟨⟨h1, h2, h3, h4, h5⟩, fun a hne => ?_⟩
    obtain ⟨b, f, hf, ha⟩ := rewrites_of_read_ne (s := { s with inputs := rest }) hc hs hne
    refine ⟨b, ?_, ha⟩
    cases hf with
    | set => exact .inl rfl
    | clear => exact .inr (.inl rfl)
    | flip => exact .inr (.inr rfl)

/-- On an unconfigured block the front end hits nothing, since no byte is allocated (R52). -/
theorem not_hit_of_unconfigured {s : State} (hc : s.configured = false) {b : Arg} {i : ShardIdx} {j : ByteIdx} {k : BitOff}
    {old : Byte} : frontEnd b s ≠ .hit i j k old := fun h =>
  not_allocated_of_unconfigured hc _ _ (allocated_of_frontEnd_hit h)

/-- A command on an unconfigured block either is refused or constructs the vector: the response tells which (R21). -/
theorem configured_iff_of_unconfigured {s t : State} {i : Instr} (hc : s.configured = false) (he : exec i s = .next t) :
    t.configured = true ↔ (∃ w, i = .new w) ∧ t.responses = s.responses ++ [0x0#4] := by
  cases exec_next he with
  | @refused st hst =>
    have hword : responseWord st false ≠ 0x0#4 := fun h => hst (responseWord_inj (st' := .ok) (r' := false) h).1
    simp [hc, hword]
  | tested _ hhit => exact absurd hhit (not_hit_of_unconfigured hc)
  | rewrote _ hhit => exact absurd hhit (not_hit_of_unconfigured hc)
  | constructed hi => exact ⟨fun _ => ⟨⟨_, hi⟩, rfl⟩, fun _ => rfl⟩

/-- Settles O34: width 0 puts every bit number out of range; the effects of a command say the rest. -/
theorem configuredOnlyByNew : Obligations.ConfiguredOnlyByNew := by
  refine ⟨fun s i b h hc hi => ?_, fun s t i he => ⟨fun hc => ?_, fun hc => configured_iff_of_unconfigured hc he⟩⟩
  · obtain ⟨hwidth, hcount, -⟩ := h.unconfigured_registers hc
    have hout : ¬ InWidth s b := by
      rw [InWidth, hwidth, BitVec.toNat_zero]
      omega
    exact ⟨hwidth, hcount, exec_outOfRange hi hout⟩
  · exact (sameRegisters_exec hc he).configured_eq.trans hc

/-- Settles O1. -/
theorem resetClearsEveryRegister : Obligations.ResetClearsEveryRegister :=
  fun _ => ⟨rfl, rfl, rfl, fun _ => rfl, not_allocated_of_unconfigured rfl⟩

/-- Settles O2; the parameters of `State.reset` are legal, being the largest that R8 allows. -/
theorem resetMeetsTheInvariant : Obligations.ResetMeetsTheInvariant :=
  ⟨fun _ => inv_resetWith, inv_resetWith (by decide)⟩

/-- Settles O6. -/
theorem stepRunsTheDecodedCommand : Obligations.StepRunsTheDecodedCommand :=
  fun _ _ _ _ hin hd _ => step_command hin hd

/-- Settles O25: the decoder inverts the numbering of the cells. -/
theorem cellOfEveryBitNumber : Obligations.CellOfEveryBitNumber := by
  intro s i j k hk h
  obtain ⟨hi, hj, hbit⟩ := coordinates_bitNumber (i := i) hk h
  change bitAt s (bitNumber i j k) = _
  rw [bitAt, hi, hj, hbit]

end Sys2Proof.Machine

/-!
# The decoder and the storage (20_memory.md)

The arithmetic of the decoder, the accessors as one operation on the addressed byte, and the flat bit vector; from them
the statements of the family.
-/

/-! ## The decoder -/

namespace Sys2Proof.Machine

theorem bitOf_lt (b : Nat) : bitOf b < 8 := Nat.mod_lt _ (by decide)

/-- The cell of a bit number names it (R44). -/
theorem coordinates_inj {b c : Nat} (hi : shardOf b = shardOf c) (hj : byteOf b = byteOf c) (hk : bitOf b = bitOf c) :
    b = c := by
  rw [← bitNumber_coordinates b, ← bitNumber_coordinates c, hi, hj, hk]

theorem cell_lt_shardBits (b : Nat) : 8 * byteOf b + bitOf b < Config.shardBits := by
  have : withinOf b < Config.shardBits := Nat.mod_lt _ (by decide)
  rw [byteOf, bitOf]
  omega

/-- A bit number below the width lies in an allocated shard, at a byte below that shard's length (R24, R44). -/
theorem coordinates_lt_shape {w b : Nat} (h : b < w) : shardOf b < shardsNeeded w ∧ byteOf b < bytesNeeded w (shardOf b) := by
  simp only [shardOf, byteOf, withinOf, shardsNeeded, bytesNeeded, ceilDiv, shardBits_eq]
  omega

theorem addressDecoder_shardIdx (b width : Arg) (n : ShardIdx) :
    (addressDecoder b width n).shardIdx = decoderShardIdx b width n := by
  unfold addressDecoder
  split <;> rfl

theorem addressDecoder_inRange (b width : Arg) (n : ShardIdx) :
    (addressDecoder b width n).inRange = decoderInRange b width n := by
  unfold addressDecoder
  split <;> rfl

/-- The three terms of the range check (R43). -/
theorem addressDecoder_inRange_iff (b width : Arg) (n : ShardIdx) :
    (addressDecoder b width n).inRange = true ↔
      0 ≤ signed64 b ∧ signed64 b < (width.toNat : Int) ∧ (addressDecoder b width n).shardIdx.toNat < n.toNat := by
  rw [addressDecoder_inRange, addressDecoder_shardIdx, decoderInRange]
  simp only [Bool.and_eq_true, decide_eq_true_eq, and_assoc]

theorem InWidth.toNat_lt {s : State} {b : Arg} (h : InWidth s b) : b.toNat < s.width.toNat := by
  obtain ⟨hb, hlt⟩ := h
  have := (signed64_of_nonneg hb).1
  omega

theorem InWidth.toNat_signed64 {s : State} {b : Arg} (h : InWidth s b) : (signed64 b).toNat = b.toNat := by
  rw [(signed64_of_nonneg h.1).1, Int.toNat_natCast]

/-- Under the invariant the second term of the range check implies the third (R43). -/
theorem Inv.inRange_iff {s : State} (h : Inv s) (b : Arg) :
    (addressDecoder b s.width s.shardCount).inRange = true ↔ InWidth s b := by
  rw [addressDecoder_inRange_iff]
  refine ⟨fun ⟨hb, hlt, _⟩ => ⟨hb, hlt⟩, fun hw => ⟨hw.1, hw.2, ?_⟩⟩
  rw [(addressDecoder_of_nonneg s.width s.shardCount hw.1).1, h.shardCount_eq]
  exact (coordinates_lt_shape hw.toNat_lt).1

/-! ## The front end and the mux -/

/-- Under the invariant every bit number below the width addresses an allocated byte (R44, R52). -/
theorem Inv.allocated_of_lt {s : State} (h : Inv s) {b : Nat} (hb : b < s.width.toNat) :
    Allocated s (shardOf b) (byteOf b) := by
  obtain ⟨hi, hj⟩ := coordinates_lt_shape hb
  have hcount : shardOf b < s.shardCount.toNat := h.shardCount_eq ▸ hi
  refine ⟨?_, hcount, ?_⟩
  · by_contra hc
    rw [h.unconfigured_width (by simpa using hc)] at hb
    simp at hb
  · rwa [h.shardLenAt_eq, if_pos hcount]

/-- Under the invariant the front end hits for every bit number in range (R43, R52). -/
theorem Inv.frontEnd_hit {s : State} (h : Inv s) {b : Arg} (hw : InWidth s b) :
    ∃ (i : ShardIdx) (j : ByteIdx) (k : BitOff),
      i.toNat = shardOf b.toNat ∧ j.toNat = byteOf b.toNat ∧ k.toNat = bitOf b.toNat ∧
      frontEnd b s = .hit i j k (byteAt s (shardOf b.toNat) (byteOf b.toNat)) := by
  have halloc := h.allocated_of_lt hw.toNat_lt
  exact frontEnd_of_allocated hw.1 hw.toNat_lt halloc (h.byteExists_of_allocated halloc)

theorem frontEnd_of_not_inRange {b : Arg} {s : State} (h : (addressDecoder b s.width s.shardCount).inRange = false) :
    frontEnd b s = .outOfRange := by
  rw [frontEnd, if_pos h]

/-- The guard of the mux refuses a byte that is not allocated, in every state (R52). -/
theorem frontEnd_of_not_allocated {b : Arg} {s : State} (h0 : 0 ≤ signed64 b)
    (h : ¬ Allocated s (shardOf b.toNat) (byteOf b.toNat)) : frontEnd b s = .outOfRange := by
  obtain ⟨hi, -, hj, -, -⟩ := addressDecoder_of_nonneg s.width s.shardCount h0
  rw [frontEnd]
  split
  · rfl
  · rw [if_pos (by rwa [hi, hj])]

/-- A refused accessor answers `OUT_OF_RANGE` and changes nothing (R43, R52). -/
theorem exec_of_frontEnd_outOfRange {i : Instr} {b : Arg} {s : State} (hi : IsAccessor i b)
    (h : frontEnd b s = .outOfRange) : exec i s = .next (s.respond .outOfRange false) := by
  rcases hi.cases with rfl | ⟨f, hf⟩
  · rw [exec_test, readBit_of_outOfRange h]
  · rw [hf.exec_eq, modifyBit_of_outOfRange h]

/-- A refused accessor makes no access (R51). -/
theorem muxAccesses_of_frontEnd_outOfRange {i : Instr} {b : Arg} {s : State} (hi : IsAccessor i b)
    (h : frontEnd b s = .outOfRange) : muxAccesses i s = [] := by
  rcases hi.cases with rfl | ⟨f, hf⟩
  · rw [muxAccesses, readAccesses, h]
  · rw [hf.muxAccesses_eq, rewriteAccesses, h]

theorem muxAccesses_test_of_hit {b : Arg} {s : State} {i : ShardIdx} {j : ByteIdx} {k : BitOff} {old : Byte}
    (h : frontEnd b s = .hit i j k old) : muxAccesses (.test b) s = [{ shard := i, access := .read j }] := by
  rw [muxAccesses, readAccesses, h]

theorem Rewrites.muxAccesses_of_hit {instr : Instr} {b : Arg} {f : Byte → Byte → Byte} (hf : Rewrites instr b f) {s : State}
    {i : ShardIdx} {j : ByteIdx} {k : BitOff} {old : Byte} (h : frontEnd b s = .hit i j k old) :
    muxAccesses instr s = [{ shard := i, access := .read j }, { shard := i, access := .write j (f old (bitMask k)) }] := by
  rw [hf.muxAccesses_eq, rewriteAccesses, h]

theorem Rewrites.ne_test {i : Instr} {b c : Arg} {f : Byte → Byte → Byte} (h : Rewrites i b f) : i ≠ .test c := by
  rintro rfl
  cases h

@[simp] theorem perform_read (m : Memory) (x : ShardIdx) (y : ByteIdx) :
    m.perform { shard := x, access := .read y } = m := rfl

@[simp] theorem perform_write (m : Memory) (x : ShardIdx) (y : ByteIdx) (v : Byte) :
    m.perform { shard := x, access := .write y v } = m.write (byteAddr x.toNat y.toNat) v := rfl

/-- What an accessor does to the storage is what its accesses at the mux do (R51). -/
theorem storage_of_muxAccesses {s t : State} {i : Instr} {b : Arg} (hi : IsAccessor i b) (he : exec i s = .next t) :
    t.storage = (muxAccesses i s).foldl Memory.perform s.storage := by
  rcases hi.cases with rfl | ⟨f, hf⟩
  · rw [exec_test] at he
    rcases readBit_next he with ⟨hout, rfl⟩ | ⟨_, _, _, _, hhit, rfl⟩
    · rw [muxAccesses_of_frontEnd_outOfRange hi hout, respond_storage, List.foldl_nil]
    · rw [muxAccesses_test_of_hit hhit, respond_storage, List.foldl_cons, perform_read, List.foldl_nil]
  · rw [hf.exec_eq] at he
    rcases modifyBit_next he with ⟨hout, rfl⟩ | ⟨_, _, _, _, hhit, rfl⟩
    · rw [muxAccesses_of_frontEnd_outOfRange hi hout, respond_storage, List.foldl_nil]
    · obtain ⟨-, -, hx, hy, -, -, -, -⟩ := frontEnd_hit hhit
      rw [hf.muxAccesses_of_hit hhit, respond_storage, setStorage_storage, List.foldl_cons, perform_read, List.foldl_cons,
        perform_write, List.foldl_nil, hx, hy]

/-! ## One byte rewritten -/

/-- The memory with one byte replaced by what `g` makes of it. -/
def Memory.modify (m : Memory) (a : Nat) (g : Byte → Byte) : Memory := m.write a (g (m.read a))

theorem modify_eq_write (m : Memory) (a : Nat) (g : Byte → Byte) : m.modify a g = m.write a (g (m.read a)) := rfl

theorem read_modify (m : Memory) (a : Nat) (g : Byte → Byte) (b : Nat) :
    (m.modify a g).read b = if b = a then g (m.read a) else m.read b := read_write ..

theorem modify_wf {m : Memory} (h : m.wf) (a : Nat) (g : Byte → Byte) : (m.modify a g).wf := write_wf h ..

/-- In a canonical memory, replacing a byte by itself is no change at all. -/
theorem modify_of_fixed {m : Memory} (h : m.wf) {a : Nat} {g : Byte → Byte} (hg : g (m.read a) = m.read a) :
    m.modify a g = m := by
  refine memory_ext (modify_wf h ..) h (write_epoch ..) (write_zeroedBelow ..) fun b => ?_
  rw [read_modify, hg]
  split
  · next hb => rw [hb]
  · rfl

/-- In a canonical memory two rewrites commute, when those of the same byte do. -/
theorem modify_comm {m : Memory} (h : m.wf) {a a' : Nat} {g g' : Byte → Byte}
    (hg : a = a' → ∀ x, g' (g x) = g (g' x)) : (m.modify a g).modify a' g' = (m.modify a' g').modify a g := by
  refine memory_ext (modify_wf (modify_wf h ..) ..) (modify_wf (modify_wf h ..) ..) ?_ ?_ fun b => ?_
  · simp only [modify_eq_write, write_epoch]
  · simp only [modify_eq_write, write_zeroedBelow]
  simp only [read_modify]
  by_cases ha : a = a'
  · subst ha
    by_cases hb : b = a <;> simp [hb, hg rfl]
  · by_cases hb : b = a'
    · subst hb
      simp [Ne.symm ha]
    · simp [hb, ha]

end Sys2Proof.Machine

/-! ## The accessors as one operation on the addressed byte -/

namespace Sys2Proof.Machine

/-- What a command makes of the addressed byte and the mask of the addressed bit; TEST leaves the byte (R51). -/
def byteEffect : Instr → Byte → Byte → Byte
  | .set _ => setByte
  | .clear _ => clearByte
  | .flip _ => flipByte
  | .test _ => fun old _ => old
  | .new _ => fun old _ => old

/-- What a command makes of the addressed bit (R132). -/
def bitEffect : Instr → Bool → Bool
  | .set _ => fun _ => true
  | .clear _ => fun _ => false
  | .flip _ => fun x => !x
  | .test _ => fun x => x
  | .new _ => fun x => x

/-- The RESULT of a command that finds the addressed bit at `x`: only TEST reports it (R77). -/
def bitResult : Instr → Bool → Bool
  | .test _ => fun x => x
  | .set _ => fun _ => false
  | .clear _ => fun _ => false
  | .flip _ => fun _ => false
  | .new _ => fun _ => false

theorem Rewrites.byteEffect_eq {i : Instr} {b : Arg} {f : Byte → Byte → Byte} (h : Rewrites i b f) : byteEffect i = f := by
  cases h <;> rfl

theorem Rewrites.bitResult_eq {i : Instr} {b : Arg} {f : Byte → Byte → Byte} (h : Rewrites i b f) (x : Bool) :
    bitResult i x = false := by
  cases h <;> rfl

/-- A command changes the addressed bit of the byte, and no other (R131). -/
theorem byteEffect_getLsbD (i : Instr) (x : Byte) (k : BitOff) {n : Nat} (hn : n < 8) :
    (byteEffect i x (bitMask k)).getLsbD n = if n = k.toNat then bitEffect i (x.getLsbD n) else x.getLsbD n := by
  cases i with
  | set => exact setByte_getLsbD x k n hn
  | clear => exact clearByte_getLsbD x k n hn
  | flip => exact flipByte_getLsbD x k n hn
  | test => exact (ite_self _).symm
  | new => exact (ite_self _).symm

/-- The linear address of the byte that holds the cell of a bit number (R25). -/
def cellAddr (b : Nat) : Nat := byteAddr (shardOf b) (byteOf b)

/-- The mask of the cell of a bit number in its byte (R48). -/
def cellMask (b : Nat) : Byte := bitMask (BitVec.ofNat 3 (bitOf b))

theorem bitMask_eq_cellMask {k : BitOff} {b : Nat} (h : k.toNat = bitOf b) : bitMask k = cellMask b := by
  rw [cellMask, ← h, BitVec.ofNat_toNat, BitVec.setWidth_eq]

theorem bitAt_eq (s : State) (b : Nat) : bitAt s b = (s.storage.read (cellAddr b)).getLsbD (bitOf b) := rfl

/-- Two cells in one byte at one offset are one cell (R44). -/
theorem cell_inj {b c : Nat} (ha : cellAddr b = cellAddr c) (hk : bitOf b = bitOf c) : b = c := by
  obtain ⟨hi, hj⟩ := byteAddr_inj (byteOf_lt b) (byteOf_lt c) ha
  exact coordinates_inj hi hj hk

/-- What the command `i` makes of the byte that holds the cell of the bit number `b`. -/
def cellEffect (i : Instr) (b : Nat) (x : Byte) : Byte := byteEffect i x (cellMask b)

theorem cellEffect_getLsbD (i : Instr) (b : Nat) (x : Byte) {n : Nat} (hn : n < 8) :
    (cellEffect i b x).getLsbD n = if n = bitOf b then bitEffect i (x.getLsbD n) else x.getLsbD n := by
  rw [cellEffect, cellMask, byteEffect_getLsbD i x _ hn, BitVec.toNat_ofNat, Nat.mod_eq_of_lt (bitOf_lt b)]

/-- The state after an accessor in range: the byte of its cell rewritten, and `OK` with the bit a TEST reports. -/
def afterAccess (i : Instr) (b : Nat) (s : State) : State :=
  (s.setStorage (s.storage.modify (cellAddr b) (cellEffect i b))).respond .ok (bitResult i (bitAt s b))

@[simp] theorem afterAccess_phys (i : Instr) (b : Nat) (s : State) : (afterAccess i b s).phys = s.phys := by
  rw [afterAccess, respond_phys, setStorage_phys]
@[simp] theorem afterAccess_configured (i : Instr) (b : Nat) (s : State) : (afterAccess i b s).configured = s.configured := by
  rw [afterAccess, respond_configured, setStorage_configured]
@[simp] theorem afterAccess_width (i : Instr) (b : Nat) (s : State) : (afterAccess i b s).width = s.width := by
  rw [afterAccess, respond_width, setStorage_width]
@[simp] theorem afterAccess_shardCount (i : Instr) (b : Nat) (s : State) : (afterAccess i b s).shardCount = s.shardCount := by
  rw [afterAccess, respond_shardCount, setStorage_shardCount]
@[simp] theorem afterAccess_shardLen (i : Instr) (b : Nat) (s : State) : (afterAccess i b s).shardLen = s.shardLen := by
  rw [afterAccess, respond_shardLen, setStorage_shardLen]
@[simp] theorem afterAccess_storage (i : Instr) (b : Nat) (s : State) :
    (afterAccess i b s).storage = s.storage.modify (cellAddr b) (cellEffect i b) := by
  rw [afterAccess, respond_storage, setStorage_storage]
@[simp] theorem afterAccess_inputs (i : Instr) (b : Nat) (s : State) : (afterAccess i b s).inputs = s.inputs := by
  rw [afterAccess, respond_inputs, setStorage_inputs]
@[simp] theorem afterAccess_responses (i : Instr) (b : Nat) (s : State) :
    (afterAccess i b s).responses = s.responses ++ [responseWord .ok (bitResult i (bitAt s b))] := by
  rw [afterAccess, respond_responses, setStorage_responses]

/-- The addressed bit becomes what the command makes of it; every other bit stays (R122, R132). -/
theorem bitAt_afterAccess (i : Instr) (b : Nat) (s : State) (c : Nat) :
    bitAt (afterAccess i b s) c = if c = b then bitEffect i (bitAt s c) else bitAt s c := by
  rw [bitAt_eq, bitAt_eq, afterAccess_storage, read_modify]
  by_cases ha : cellAddr c = cellAddr b
  · rw [if_pos ha, cellEffect_getLsbD _ _ _ (bitOf_lt c), ← ha]
    exact if_congr ⟨fun hk => cell_inj ha hk, congrArg bitOf⟩ rfl rfl
  · rw [if_neg ha, if_neg fun h => ha (congrArg cellAddr h)]

theorem setStorage_self (s : State) : s.setStorage s.storage = s := rfl

/-- Under the invariant an accessor whose bit is already what it makes of it only answers. -/
theorem Inv.afterAccess_of_fixed {s : State} (h : Inv s) {i : Instr} {b : Nat} (hfix : bitEffect i (bitAt s b) = bitAt s b) :
    afterAccess i b s = s.respond .ok (bitResult i (bitAt s b)) := by
  have hbyte : cellEffect i b (s.storage.read (cellAddr b)) = s.storage.read (cellAddr b) := by
    refine BitVec.eq_of_getLsbD_eq fun n hn => ?_
    rw [cellEffect_getLsbD i b _ hn]
    split
    · next hk => rw [hk, ← bitAt_eq, hfix]
    · rfl
  rw [afterAccess, modify_of_fixed h.storage_wf hbyte, setStorage_self]

/-- The meaning of every accessor in range, under the invariant (R101, R106, R111, R116). -/
theorem Inv.exec_accessor {s : State} (h : Inv s) {i : Instr} {b : Arg} (hi : IsAccessor i b) (hw : InWidth s b) :
    exec i s = .next (afterAccess i b.toNat s) := by
  obtain ⟨x, y, k, -, -, hk, hhit⟩ := h.frontEnd_hit hw
  rcases hi.cases with rfl | ⟨f, hf⟩
  · rw [h.afterAccess_of_fixed rfl, exec_test, readBit_of_hit hhit, testedBit_eq, hk]
    rfl
  · rw [hf.exec_eq, modifyBit_of_hit hhit, bitMask_eq_cellMask hk, ← hf.byteEffect_eq, afterAccess, hf.bitResult_eq]
    rfl

theorem inv_afterAccess {s : State} (h : Inv s) {i : Instr} {b : Arg} (hi : IsAccessor i b) (hw : InWidth s b) :
    Inv (afterAccess i b.toNat s) :=
  inv_exec h (h.exec_accessor hi hw)

theorem inWidth_afterAccess {s : State} {c : Arg} (h : InWidth s c) (i : Instr) (b : Nat) :
    InWidth (afterAccess i b s) c := by
  rwa [InWidth, afterAccess_width]

/-- What two commands make of the cells of two different bit numbers in one byte does not depend on their order (R66). -/
theorem cellEffect_comm (i j : Instr) {b c : Nat} (hne : bitOf b ≠ bitOf c) (x : Byte) :
    cellEffect j c (cellEffect i b x) = cellEffect i b (cellEffect j c x) := by
  refine BitVec.eq_of_getLsbD_eq fun n hn => ?_
  simp only [cellEffect_getLsbD _ _ _ hn]
  by_cases hb : n = bitOf b
  · subst hb
    simp [hne]
  · simp [hb]

/-- The storage two accessors on different bit numbers leave does not depend on their order (R66). -/
theorem storage_afterAccess_comm {s : State} (h : Inv s) (i j : Instr) {b c : Nat} (hne : b ≠ c) :
    (afterAccess j c (afterAccess i b s)).storage =
      (afterAccess i b (afterAccess j c s)).storage := by
  simp only [afterAccess_storage]
  exact modify_comm h.storage_wf fun ha => cellEffect_comm i j fun hk => hne (cell_inj ha hk)

end Sys2Proof.Machine

/-! ## Every command, step and run completes -/

namespace Sys2Proof.Machine

/-- NEW always answers a next state (R90, R147). -/
theorem execNew_completes (w : Arg) (s : State) : ∃ t, execNew w s = .next t := by
  rcases execNew_cases w s with ⟨-, he⟩ | ⟨-, -, he⟩ | ⟨-, -, -, he⟩ | ⟨-, -, -, he⟩ <;> exact ⟨_, he⟩

theorem accessor_completes {s : State} (h : Inv s) {i : Instr} {b : Arg} (hi : IsAccessor i b) : ∃ t, exec i s = .next t := by
  by_cases hw : InWidth s b
  · exact ⟨_, h.exec_accessor hi hw⟩
  · exact ⟨_, exec_outOfRange hi hw⟩

theorem exec_completes {s : State} (h : Inv s) (i : Instr) : ∃ t, exec i s = .next t := by
  cases i with
  | new w => exact execNew_completes w s
  | set b => exact accessor_completes h (.set b)
  | clear b => exact accessor_completes h (.clear b)
  | test b => exact accessor_completes h (.test b)
  | flip b => exact accessor_completes h (.flip b)

theorem step_completes {s : State} (h : Inv s) : ∃ t, step s = .next t := by
  rcases hin : s.inputs with _ | ⟨input, rest⟩
  · exact ⟨_, step_idle hin⟩
  cases input with
  | reset => exact ⟨_, step_reset hin⟩
  | resetDuring w => exact ⟨_, step_resetDuring hin⟩
  | command w =>
    rcases hd : decode w with e | i
    · exact ⟨_, step_reserved hin hd⟩
    · rw [step_command hin hd]
      exact exec_completes (inv_inputs h rest) i

/-- A run whose first step answers is the run of what is left. -/
theorem run_succ {M : Host.Core} {s t : M.State} (h : M.step s = .next t) (n : Nat) : M.run (n + 1) s = M.run n t := by
  rw [Host.Core.run, h]

theorem run_completes (n : Nat) {s : State} (h : Inv s) : ∃ t, Host.Core.run Sys2Proof.core n s = .next t := by
  induction n generalizing s with
  | zero => exact ⟨s, rfl⟩
  | succ n ih =>
    obtain ⟨t, hst⟩ := step_completes h
    rw [run_succ (M := Sys2Proof.core) hst]
    exact ih (inv_step h hst)

/-! ## The flat bit vector (R60) -/

/-- From `s` to `t` the block has answered as the flat vector that gives `one`: it stands for that vector, has returned
that response, and has taken nothing off the port. -/
structure AnswersAs (s t : State) (one : FlatVector × Response) : Prop where
  standsFor : StandsFor t one.1
  responses_eq : t.responses = s.responses ++ [responseWord one.2.status one.2.result]
  inputs_eq : t.inputs = s.inputs
  phys_eq : t.phys = s.phys

theorem StandsFor.withInputs {s : State} {v : FlatVector} (h : StandsFor s v) (xs : List HostInput) :
    StandsFor { s with inputs := xs } v :=
  ⟨h.configured_eq, h.width_eq, h.bits_eq⟩

/-- A response changes nothing that the flat vector speaks of. -/
theorem StandsFor.respond {s : State} {v : FlatVector} (h : StandsFor s v) (st : Status) (r : Bool) :
    StandsFor (s.respond st r) v :=
  ⟨h.configured_eq, h.width_eq, h.bits_eq⟩

/-- A command that only answers leaves the flat vector as it is. -/
theorem StandsFor.answersAs_respond {s : State} {v : FlatVector} (h : StandsFor s v) (st : Status) (r : Bool) :
    AnswersAs s (s.respond st r) (v, { status := st, result := r }) :=
  ⟨h.respond st r, rfl, rfl, rfl⟩

/-- An accessor on the flat vector: its effect on one bit, and what a TEST reports (R132). -/
def flatAccess (i : Instr) (b : Int) (v : FlatVector) : FlatVector × Response :=
  if 0 ≤ b ∧ b < (v.width : Int) then
    ({ v with bits := fun x => if x = b.toNat then bitEffect i (v.bits x) else v.bits x },
      { status := .ok, result := bitResult i (v.bits b.toNat) })
  else (v, { status := .outOfRange, result := false })

/-- Every accessor word on the flat vector is `flatAccess`. -/
theorem flatCommand_accessor {i : Instr} {b : Arg} (hi : IsAccessor i b) {w : CommandWord} (hd : decode w = .ok i)
    (p : Config.Params) (v : FlatVector) : flatCommand p w v = flatAccess i (signed64 b) v := by
  rw [flatCommand, hd]
  cases hi with
  | set => rfl
  | clear => rfl
  | flip => rfl
  | test =>
    simp only [flatTest, flatAccess, bitEffect, bitResult, ite_self]

theorem flatCommand_new {a : Arg} {w : CommandWord} (hd : decode w = .ok (.new a)) (p : Config.Params) (v : FlatVector) :
    flatCommand p w v = flatNew p (signed64 a) v := by
  rw [flatCommand, hd]

theorem flatCommand_reserved {e : DecodeError} {w : CommandWord} (hd : decode w = .error e) (p : Config.Params)
    (v : FlatVector) : flatCommand p w v = (v, { status := .reservedOp, result := false }) := by
  rw [flatCommand, hd]

/-- An accessor answers as the flat vector does: in range by its effect on one bit, else with the same refusal. -/
theorem accessor_answersAs {s : State} {v : FlatVector} (h : Inv s) (hv : StandsFor s v) {i : Instr} {b : Arg}
    (hi : IsAccessor i b) : ∃ t, exec i s = .next t ∧ AnswersAs s t (flatAccess i (signed64 b) v) := by
  by_cases hw : InWidth s b
  · refine ⟨_, h.exec_accessor hi hw, ?_⟩
    rw [flatAccess, hv.width_eq, if_pos hw, hw.toNat_signed64, hv.bits_eq _ hw.toNat_lt]
    refine ⟨⟨?_, ?_, fun c hc => ?_⟩, ?_, ?_, ?_⟩
    · rw [afterAccess_configured, hv.configured_eq]
    · rw [afterAccess_width]
    · rw [afterAccess_width] at hc
      rw [bitAt_afterAccess, ← hv.bits_eq c hc]
    · rw [afterAccess_responses]
    · rw [afterAccess_inputs]
    · rw [afterAccess_phys]
  · refine ⟨_, exec_outOfRange hi hw, ?_⟩
    rw [flatAccess, hv.width_eq, if_neg hw]
    exact hv.answersAs_respond ..

/-- The allocation test of the block is that of the flat vector, which has no case for width 0 (R94). -/
theorem fits_eq_false_iff (p : Config.Params) (w : Nat) :
    fits p w = false ↔ p.maxShards < ceilDiv w Config.shardBits ∨ p.shardMemBytes < ceilDiv (min Config.shardBits w) 8 := by
  rw [← Bool.not_eq_true, fits_iff]
  simp only [shardsNeeded, bytesNeeded, ceilDiv, shardBits_eq]
  omega

/-- Every bit of a newly constructed vector is 0 (R96). -/
theorem bitAt_construct {w b : Nat} (s : State) (hb : b < w) : bitAt (construct w s) b = false := by
  have haddr : byteAddr (shardOf b) (byteOf b) < allocEnd w :=
    (byteAddr_lt_allocEnd w _ _ (byteOf_lt b)).2 (coordinates_lt_shape hb)
  rw [bitAt, byteAt_construct, if_pos haddr, BitVec.getLsbD_zero]

theorem standsFor_construct {w : Nat} (s : State) (hw : w < 9223372036854775808) :
    StandsFor (construct w s) { configured := true, width := w, bits := fun _ => false } := by
  have hwidth : (construct w s).width.toNat = w := by
    rw [construct_width, BitVec.toNat_ofNat]
    omega
  exact ⟨rfl, hwidth.symm, fun b hb => (bitAt_construct s (hwidth ▸ hb)).symm⟩

/-- NEW answers as the flat vector does: the same errors in the same order, else a vector of zeros (R147). -/
theorem execNew_answersAs {s : State} {v : FlatVector} (hv : StandsFor s v) (w : Arg) :
    ∃ t, execNew w s = .next t ∧ AnswersAs s t (flatNew s.phys (signed64 w) v) := by
  rcases execNew_cases w s with ⟨hc, he⟩ | ⟨hc, hneg, he⟩ | ⟨hc, hw, hfits, he⟩ | ⟨hc, hw, hfits, he⟩ <;>
    refine ⟨_, he, ?_⟩ <;> rw [flatNew, hv.configured_eq]
  · rw [if_pos hc]
    exact hv.answersAs_respond ..
  · rw [if_neg (by simp [hc]), if_pos hneg]
    exact hv.answersAs_respond ..
  · rw [if_neg (by simp [hc]), if_neg (by omega), if_pos ((fits_eq_false_iff ..).1 hfits)]
    exact hv.answersAs_respond ..
  · rw [if_neg (by simp [hc]), if_neg (by omega), if_neg fun hbad => by simp [(fits_eq_false_iff ..).2 hbad] at hfits]
    exact ⟨(standsFor_construct s (toNat_signed64_lt w)).respond .., rfl, rfl, rfl⟩

/-- The commuting diagram of one command: the block and the flat vector answer it alike (R60). -/
theorem exec_answersAs {s : State} {v : FlatVector} (h : Inv s) (hv : StandsFor s v) {w : CommandWord} {i : Instr}
    (hd : decode w = .ok i) : ∃ t, exec i s = .next t ∧ AnswersAs s t (flatCommand s.phys w v) := by
  have accessor {b : Arg} (hi : IsAccessor i b) : ∃ t, exec i s = .next t ∧ AnswersAs s t (flatCommand s.phys w v) := by
    rw [flatCommand_accessor hi hd]
    exact accessor_answersAs h hv hi
  cases i with
  | new a =>
    rw [flatCommand_new hd]
    exact execNew_answersAs hv a
  | set b => exact accessor (.set b)
  | clear b => exact accessor (.clear b)
  | test b => exact accessor (.test b)
  | flip b => exact accessor (.flip b)

/-- The commuting diagram of one step that takes a command word, reserved or not (R60, R145). -/
theorem step_answersAs {s : State} {v : FlatVector} {w : CommandWord} {rest : List HostInput} (h : Inv s)
    (hv : StandsFor s v) (hin : s.inputs = .command w :: rest) :
    ∃ t, step s = .next t ∧ AnswersAs { s with inputs := rest } t (flatCommand s.phys w v) := by
  have hrest := hv.withInputs rest
  rcases hd : decode w with e | i
  · rw [step_reserved hin hd, flatCommand_reserved hd]
    exact ⟨_, rfl, hrest.answersAs_respond ..⟩
  · rw [step_command hin hd]
    exact exec_answersAs (inv_inputs h rest) hrest hd

/-- The run of a sequence of command words, by induction along the sequence (R60). -/
theorem run_refines (ws : List CommandWord) {s : State} {v : FlatVector} {rest : List HostInput} (h : Inv s)
    (hv : StandsFor s v) (hin : s.inputs = ws.map .command ++ rest) :
    ∃ t, Host.Core.run Sys2Proof.core ws.length s = .next t ∧ StandsFor t (flatRun s.phys ws v).1 ∧
      t.responses = s.responses ++ (flatRun s.phys ws v).2 ∧ t.inputs = rest := by
  induction ws generalizing s v with
  | nil => exact ⟨s, rfl, hv, (List.append_nil _).symm, hin⟩
  | cons w ws ih =>
    obtain ⟨u, hu, hone⟩ := step_answersAs h hv hin
    obtain ⟨t, hrun, hstands, hresp, hinputs⟩ := ih (inv_step h hu) hone.standsFor hone.inputs_eq
    have hphys : u.phys = s.phys := hone.phys_eq
    rw [hphys] at hstands hresp
    refine ⟨t, (run_succ (M := Sys2Proof.core) hu _).trans hrun, hstands, ?_, hinputs⟩
    rw [hresp, hone.responses_eq, List.append_assoc]
    rfl

end Sys2Proof.Machine

/-! ## The statements of the family -/

namespace Sys2Proof.Machine

/-- Settles O10: a state that meets the invariant always steps, and every step keeps the invariant. -/
theorem everyRunCompletes : Obligations.EveryRunCompletes := by
  intro n s h
  obtain ⟨t, hrun⟩ := run_completes n h
  exact ⟨t, hrun, inv_run h hrun⟩

/-- Settles O11: one commuting diagram per step, composed along the sequence of words. -/
theorem shardedBlockRefinesFlatBitVector : Obligations.ShardedBlockRefinesFlatBitVector :=
  fun ws _ _ _ => run_refines ws

/-- The decoder's byte index and bit offset are slices of its within-shard offset (R41). -/
theorem addressDecoder_slices {b : Arg} (width : Arg) (n : ShardIdx) (h : 0 ≤ signed64 b) :
    (addressDecoder b width n).byteIdx = (addressDecoder b width n).within.extractLsb' 3 28 ∧
    (addressDecoder b width n).bitOff = (addressDecoder b width n).within.extractLsb' 0 3 := by
  obtain ⟨-, hwithin, hbyte, hbit, -⟩ := addressDecoder_of_nonneg width n h
  have := (addressDecoder b width n).within.isLt
  constructor <;> apply BitVec.eq_of_toNat_eq <;>
    rw [BitVec.extractLsb'_toNat, Nat.shiftRight_eq_div_pow, hwithin]
  · rw [hbyte, byteOf]
    omega
  · rw [hbit, bitOf]
    omega

/-- Settles O17. -/
theorem decoderFollowsTheAddressingFunction : Obligations.DecoderFollowsTheAddressingFunction := by
  refine ⟨fun b width n h => ?_, by decide, by decide, by decide, by decide⟩
  obtain ⟨hshard, hwithin, hbyte, hbit, -⟩ := addressDecoder_of_nonneg width n h
  obtain ⟨hbyteSlice, hbitSlice⟩ := addressDecoder_slices width n h
  have hlt := (signed64_of_nonneg h).2
  have hS := shardBits_eq
  refine ⟨?_, ?_, ?_, ?_, hbyteSlice, hbitSlice, ?_, ?_⟩
  · rw [hshard, shardOf, hS]
  · rw [hwithin, withinOf, hS]
  · rw [hbyte, byteOf, withinOf, hS]
  · rw [hbit, bitOf, withinOf, hS]
  · rw [hshard, shardOf, hS]
    omega
  · rw [hwithin, withinOf, hS]
    omega

/-- Inside a shard the next bit number is the next bit of the byte, or bit 0 of the next byte (R44). -/
theorem coordinates_succ {b : Nat} (h : shardOf (b + 1) = shardOf b) :
    (byteOf (b + 1) = byteOf b ∧ bitOf (b + 1) = bitOf b + 1) ∨
    (byteOf (b + 1) = byteOf b + 1 ∧ bitOf b = 7 ∧ bitOf (b + 1) = 0) := by
  simp only [shardOf, byteOf, bitOf, withinOf, shardBits_eq] at *
  omega

/-- Settles O18, a clause each: injective, onto the cells, inverse, allocated, no padding, monotone. -/
theorem decoderPropertiesOfR44 : Obligations.DecoderPropertiesOfR44 := by
  refine ⟨fun b c => coordinates_inj, fun i j k hk => ⟨?_, fun h => ?_⟩, fun b => ?_, fun w b h => ?_,
    fun w b => not_isPadding_coordinates, fun b => coordinates_succ⟩
  · rintro ⟨b, rfl, rfl, rfl⟩
    exact cell_lt_shardBits b
  · exact ⟨_, coordinates_bitNumber hk h⟩
  · calc b = bitNumber (shardOf b) (byteOf b) (bitOf b) := (bitNumber_coordinates b).symm
      _ = shardOf b * 2147483647 + 8 * byteOf b + bitOf b := by rw [bitNumber, shardBits_eq, Nat.mul_comm]
  · obtain ⟨hi, hj⟩ := coordinates_lt_shape h
    rw [shardLenAt_table, if_pos hi]
    exact ⟨hi, hj⟩

/-- Settles O20. -/
theorem rangeCheckOfR43 : Obligations.RangeCheckOfR43 := by
  refine ⟨addressDecoder_inRange_iff, fun s b h => ?_, fun s i b hi hr => ?_⟩
  · rw [h.inRange_iff, h.signed64_width]
  · exact exec_of_frontEnd_outOfRange hi (frontEnd_of_not_inRange hr)

/-- The accesses of an accessor in range: one read, and for a rewriting accessor one write of the same byte (R51). -/
theorem muxAccesses_of_hit {instr : Instr} {b : Arg} (hi : IsAccessor instr b) {s : State} {i : ShardIdx} {j : ByteIdx}
    {k : BitOff} {old : Byte} (h : frontEnd b s = .hit i j k old) :
    (instr = .test b ∧ muxAccesses instr s = [{ shard := i, access := .read j }]) ∨
    (instr ≠ .test b ∧ ∃ v, muxAccesses instr s = [{ shard := i, access := .read j }, { shard := i, access := .write j v }]) := by
  rcases hi.cases with rfl | ⟨f, hf⟩
  · exact .inl ⟨rfl, muxAccesses_test_of_hit h⟩
  · exact .inr ⟨hf.ne_test, _, hf.muxAccesses_of_hit h⟩

/-- Settles O22. -/
theorem accessorsTouchOneByteAtTheMux : Obligations.AccessorsTouchOneByteAtTheMux := by
  refine fun s i b h hi => ⟨?_, fun hout => ?_, fun hw => ?_⟩
  · obtain ⟨t, he⟩ := accessor_completes h hi
    exact ⟨t, he, storage_of_muxAccesses hi he⟩
  · exact muxAccesses_of_frontEnd_outOfRange hi (frontEnd_outOfRange hout)
  · obtain ⟨x, y, _, hx, hy, -, hhit⟩ := h.frontEnd_hit hw
    exact ⟨x, y, hx, hy, muxAccesses_of_hit hi hhit⟩

/-- Settles O23. -/
theorem muxGuardOfR52 : Obligations.MuxGuardOfR52 := by
  refine ⟨fun s b h hr => ?_, fun s i b hi h0 ha => ?_⟩
  · exact h.allocated_of_lt ((h.inRange_iff b).1 hr).toNat_lt
  · have hout := frontEnd_of_not_allocated h0 ha
    exact ⟨exec_of_frontEnd_outOfRange hi hout, muxAccesses_of_frontEnd_outOfRange hi hout⟩

/-- Of the accessors only FLIP does more to a bit the second time (R56). -/
theorem bitEffect_idem {i : Instr} {b : Arg} (hi : IsAccessor i b) (hne : i ≠ .flip b) (x : Bool) :
    bitEffect i (bitEffect i x) = bitEffect i x ∧ bitResult i (bitEffect i x) = bitResult i x := by
  cases hi with
  | set => exact ⟨rfl, rfl⟩
  | clear => exact ⟨rfl, rfl⟩
  | test => exact ⟨rfl, rfl⟩
  | flip => exact absurd rfl hne

/-- Settles O45: the second time finds the bit already at its new value, so it only answers. -/
theorem setClearTestAreIdempotent : Obligations.SetClearTestAreIdempotent := by
  intro s i b h hi hne hw
  obtain ⟨hbit, hresult⟩ := bitEffect_idem hi hne (bitAt s b.toNat)
  have hnew : bitAt (afterAccess i b.toNat s) b.toNat = bitEffect i (bitAt s b.toNat) := by
    rw [bitAt_afterAccess, if_pos rfl]
  refine ⟨_, _, h.exec_accessor hi hw, afterAccess_responses .., ?_⟩
  have ht := inv_afterAccess h hi hw
  rw [ht.exec_accessor hi (inWidth_afterAccess hw ..), ht.afterAccess_of_fixed (by rw [hnew, hbit]), hnew, hresult]
  rfl

/-- Two accessors on different bit numbers each report the bit as it was before both (R122). -/
theorem responses_afterAccess_afterAccess (i j : Instr) {b c : Nat} (hne : b ≠ c) (s : State) :
    (afterAccess j c (afterAccess i b s)).responses =
      s.responses ++ [responseWord .ok (bitResult i (bitAt s b)), responseWord .ok (bitResult j (bitAt s c))] := by
  rw [afterAccess_responses, afterAccess_responses, bitAt_afterAccess, if_neg hne.symm, List.append_assoc]
  rfl

/-- Settles O46: the two effects are on different bits, so their order shows neither in the storage nor in a TEST. -/
theorem accessorsOnDifferentBitsCommute : Obligations.AccessorsOnDifferentBitsCommute := by
  intro s i j b c h hi hj hb hc hne
  have hbc : b.toNat ≠ c.toNat := fun heq => hne (BitVec.eq_of_toNat_eq heq)
  have hij := (inv_afterAccess h hi hb).exec_accessor hj (inWidth_afterAccess hc i b.toNat)
  have hji := (inv_afterAccess h hj hc).exec_accessor hi (inWidth_afterAccess hb j c.toNat)
  refine ⟨_, _, _, _, _, _, h.exec_accessor hi hb, hij, h.exec_accessor hj hc, hji,
    responses_afterAccess_afterAccess i j hbc s, responses_afterAccess_afterAccess j i hbc.symm s,
    (storage_afterAccess_comm h i j hbc).symm, ?_⟩
  constructor <;> simp only [afterAccess_phys, afterAccess_configured, afterAccess_width, afterAccess_shardCount,
    afterAccess_shardLen]

/-- Settles O19: the two sides of a boundary are the cells of `i*S` and of `(i - 1)*S + (S - 1)`. -/
theorem shardBoundaries : Obligations.ShardBoundaries := by
  refine fun i w => ⟨?_, fun hi => ?_⟩
  · exact coordinates_bitNumber (i := i) (j := 0) (k := 0) (by decide) (by decide)
  · have hlast : 2147483647 * i - 1 = bitNumber (i - 1) 268435455 6 := by
      rw [bitNumber, shardBits_eq]
      omega
    obtain ⟨hshard, hbyte, hbit⟩ := coordinates_bitNumber (i := i - 1) (j := 268435455) (k := 6) (by decide) (by decide)
    rw [hlast]
    exact ⟨hshard, hbyte, hbit, .inl (by decide)⟩

/-- A write at the mux changes one byte and nothing else of the state (R50). -/
theorem memWrite_writes_one_byte {i : ShardIdx} {j : ByteIdx} {s : State} (v : Byte)
    (h : ByteExists s.phys i.toNat j.toNat) :
    ∃ t, memWrite i j v s = .ok t ∧ byteAt t i.toNat j.toNat = v ∧ SameRegisters s t ∧
      t.inputs = s.inputs ∧ t.responses = s.responses ∧
      ∀ i' j', j' < Config.shardBytesFull → ¬ (i' = i.toNat ∧ j' = j.toNat) → byteAt t i' j' = byteAt s i' j' := by
  refine ⟨s.setStorage (s.storage.write (byteAddr i.toNat j.toNat) v), by rw [memWrite_eq, if_pos h], ?_, ?_,
    setStorage_inputs .., setStorage_responses .., fun i' j' hj' hne => ?_⟩
  · rw [byteAt_setStorage_write, if_pos rfl]
  · constructor <;> simp only [setStorage_phys, setStorage_configured, setStorage_width, setStorage_shardCount,
      setStorage_shardLen]
  · rw [byteAt_setStorage_write, if_neg fun heq => hne (byteAddr_inj hj' j.isLt heq)]

/-- Settles O21. -/
theorem muxReachesOneByte : Obligations.MuxReachesOneByte := by
  refine ⟨fun i j s h => ?_, fun i j v s h => memWrite_writes_one_byte v h, fun x => ⟨?_, fun i hi => ?_⟩⟩
  · rw [memRead_eq, if_pos h, byteAt]
  · rw [muxPort, if_pos rfl]
  · rw [muxPort, if_neg hi]

end Sys2Proof.Machine

/-!
# The encoding (30_encoding.md)

Every word is the word of one command or has a reserved `OP`; the operands and lines of assembly text; the fields of
a response word. From them the statements of the family.
-/

/-! ## Command words -/

namespace Sys2Proof.Machine

/-- The `OP` values of R74, which no command has. -/
abbrev IsReservedOp (op : Opcode) : Prop := op = 0x0#4 ∨ 6 ≤ op.toNat

theorem isReservedOp_iff_toNat {op : Opcode} : IsReservedOp op ↔ op.toNat = 0 ∨ 6 ≤ op.toNat :=
  or_congr_left BitVec.toNat_eq

/-- What the word of a command holds, for every command (R71 to R73). -/
theorem encodedFields (i : Instr) : Laws.EncodedFields.Statement i := by
  cases i with
  | new w => exact Laws.EncodedFields.new w
  | set b => exact Laws.EncodedFields.set b
  | clear b => exact Laws.EncodedFields.clear b
  | test b => exact Laws.EncodedFields.test b
  | flip b => exact Laws.EncodedFields.flip b

/-- Each `OP` that is not reserved is that of a command, with every `ARG` (R73). -/
theorem exists_instr_of_not_isReservedOp {op : Opcode} (h : ¬ IsReservedOp op) (a : Arg) :
    ∃ i : Instr, i.opcode = op ∧ i.arg = a := by
  have hop : op = 0x1#4 ∨ op = 0x2#4 ∨ op = 0x3#4 ∨ op = 0x4#4 ∨ op = 0x5#4 := by
    rw [isReservedOp_iff_toNat] at h
    bv_omega
  rcases hop with rfl | rfl | rfl | rfl | rfl
  · exact ⟨.new a, rfl, rfl⟩
  · exact ⟨.set a, rfl, rfl⟩
  · exact ⟨.clear a, rfl, rfl⟩
  · exact ⟨.test a, rfl, rfl⟩
  · exact ⟨.flip a, rfl, rfl⟩

/-- Every word is that of a command or has a reserved `OP` (R73, R74). -/
theorem exists_encode_or_isReservedOp (w : CommandWord) : (∃ i, encode i = w) ∨ IsReservedOp (opField w) := by
  by_cases hres : IsReservedOp (opField w)
  · exact .inr hres
  · obtain ⟨i, hop, harg⟩ := exists_instr_of_not_isReservedOp hres (argField w)
    exact .inl ⟨i, by rw [encode, hop, harg, append_fields]⟩

theorem decode_encode (i : Instr) : decode (encode i) = .ok i := by
  obtain ⟨hop, harg, -⟩ := encodedFields i
  rw [decode, hop, harg]
  cases i <;> rfl

theorem decode_of_isReservedOp {w : CommandWord} (h : IsReservedOp (opField w)) :
    decode w = .error (.reservedOp (opField w)) := by
  rw [isReservedOp_iff_toNat] at h
  unfold decode
  split
  case h_6 => rfl
  all_goals omega

theorem encode_of_decode {w : CommandWord} {i : Instr} (h : decode w = .ok i) : encode i = w := by
  rcases exists_encode_or_isReservedOp w with ⟨j, rfl⟩ | hres
  · rw [decode_encode, Except.ok.injEq] at h
    rw [h]
  · rw [decode_of_isReservedOp hres] at h
    cases h

theorem decode_eq_reservedOp_iff {w : CommandWord} {op : Opcode} :
    decode w = .error (.reservedOp op) ↔ opField w = op ∧ IsReservedOp op := by
  constructor
  · intro h
    rcases exists_encode_or_isReservedOp w with ⟨i, rfl⟩ | hres
    · rw [decode_encode] at h
      cases h
    · rw [decode_of_isReservedOp hres, Except.error.injEq, DecodeError.reservedOp.injEq] at h
      exact ⟨h, h ▸ hres⟩
  · rintro ⟨rfl, hres⟩
    exact decode_of_isReservedOp hres

/-- Settles O13: the two round trips and the rejected words, each from the dichotomy of all words. -/
theorem decodeAndEncodeAgree : Obligations.DecodeAndEncodeAgree :=
  ⟨fun i _ => decode_encode i, fun _ _ => encode_of_decode, fun _ _ => decode_eq_reservedOp_iff⟩

/-- Settles O8: the word decodes to an error, so the step only answers, with the code 4 and RESULT 0. -/
theorem reservedWordAnswersReservedOp : Obligations.ReservedWordAnswersReservedOp := by
  intro s op arg rest hinputs hres
  have hdecode : decode (op ++ arg) = .error (.reservedOp op) :=
    decode_eq_reservedOp_iff.mpr ⟨opField_append op arg, hres⟩
  have hword : responseWord .reservedOp false = 0x8#4 := by decide
  rw [step_reserved hinputs hdecode, State.respond, hword]

end Sys2Proof.Machine

/-! ## Assembly lines -/

namespace Sys2Proof.Machine

/-- The `ARG` of an operand in range is its value modulo `2^64` (R79). -/
theorem argOfOperand_toNat {v : Int} (hlow : -9223372036854775808 ≤ v) (hhigh : v < 18446744073709551616) :
    ((argOfOperand v).toNat : Int) = if 0 ≤ v then v else v + 18446744073709551616 := by
  rw [argOfOperand, BitVec.toNat_ofNat]
  split <;> omega

theorem signed64_argOfOperand {v : Int} (hlow : -9223372036854775808 ≤ v) (hhigh : v < 9223372036854775808) :
    signed64 (argOfOperand v) = v := by
  have harg := argOfOperand_toNat hlow (by omega)
  unfold signed64
  split at harg <;> split <;> omega

/-- An operand from `2^63` on has the `ARG` of a negative one (R79). -/
theorem argOfOperand_sub {v : Int} (hlow : 9223372036854775808 ≤ v) (hhigh : v < 18446744073709551616) :
    argOfOperand v = argOfOperand (v - 18446744073709551616) := by
  rw [argOfOperand, argOfOperand, if_pos (by omega), if_neg (by omega), Int.sub_add_cancel]

/-- The lines with one operand `v`, each with the `OP` of R79's table. -/
def operandLines (v : Int) : List (AsmLine × Opcode) :=
  [(.new v, 0x1#4), (.set v, 0x2#4), (.clear v, 0x3#4), (.test v, 0x4#4), (.flip v, 0x5#4)]

/-- All five lines are alike: well formed by their operand, and with the word of their `OP` and operand. -/
theorem operandLines_spec {v : Int} {l : AsmLine} {op : Opcode} (h : (l, op) ∈ operandLines v) :
    l.wf = operandFits v ∧ lineWord l = op ++ argOfOperand v := by
  simp only [operandLines, List.mem_cons, List.not_mem_nil, or_false, Prod.mk.injEq] at h
  rcases h with ⟨rfl, rfl⟩ | ⟨rfl, rfl⟩ | ⟨rfl, rfl⟩ | ⟨rfl, rfl⟩ | ⟨rfl, rfl⟩ <;> exact ⟨rfl, rfl⟩

theorem not_operandFits_iff {v : Int} :
    ¬ operandFits v = true ↔ v < -9223372036854775808 ∨ 18446744073709551616 ≤ v := by
  rw [operandFits_iff]
  omega

theorem not_opFits_iff {op : Int} : ¬ opFits op = true ↔ op < 0 ∨ 16 ≤ op := by
  rw [opFits_iff]
  omega

theorem wf_raw_iff {op v : Int} : (AsmLine.raw op v).wf = true ↔ opFits op = true ∧ operandFits v = true :=
  Bool.and_eq_true_iff

/-- Settles O15: the operands by their value, the five commands' lines by `operandLines_spec`, RAW by its two ranges. -/
theorem assemblyOperandsEncodeTheirValue : Obligations.AssemblyOperandsEncodeTheirValue := by
  refine ⟨fun v => argOfOperand_toNat, fun v => signed64_argOfOperand, fun v => argOfOperand_sub, fun v l op hl => ?_,
    fun op v => ⟨?_, fun w hw => ?_⟩⟩
  · obtain ⟨hwf, hword⟩ := operandLines_spec hl
    refine ⟨by rw [assemble_eq_none, hwf, not_operandFits_iff], fun w hw => ?_⟩
    obtain ⟨-, rfl⟩ := assemble_eq_some.mp hw
    rw [hword]
    exact ⟨opField_append .., argField_append ..⟩
  · rw [assemble_eq_none, wf_raw_iff, not_and_or, not_opFits_iff, not_operandFits_iff]
  · obtain ⟨hwf, rfl⟩ := assemble_eq_some.mp hw
    obtain ⟨hlow, hhigh⟩ := opFits_iff.mp (wf_raw_iff.mp hwf).1
    refine ⟨?_, argField_lineWord _⟩
    rw [opField_lineWord, BitVec.toNat_ofNat]
    omega

/-- Settles O14: the texts by evaluation, the words as those of their commands. -/
theorem encodingExamplesOfR81 : Obligations.EncodingExamplesOfR81 :=
  ⟨by decide, by decide, by decide, by decide, by decide, by decide, by decide,
    decode_encode (.new 10#64), decode_encode (.set 3#64), decode_encode (.clear 0#64), decode_encode (.test 0x7FFFFFFF#64),
    decode_encode (.flip 0x7FFFFFFFFFFFFFFF#64), decode_encode (.test 0xFFFFFFFFFFFFFFFF#64),
    decode_eq_reservedOp_iff.mpr ⟨by decide, .inl rfl⟩⟩

end Sys2Proof.Machine

/-! ## Response words -/

namespace Sys2Proof.Machine

theorem responseWord_toNat (st : Status) (r : Bool) : (responseWord st r).toNat = (statusCode st).toNat * 2 + r.toNat := by
  rw [responseWord, BitVec.toNat_append, ← Nat.shiftLeft_add_eq_or_of_lt (BitVec.isLt _), Nat.shiftLeft_eq,
    BitVec.toNat_ofBool, Nat.pow_one]

/-- The codes 6 and 7 name no status (R76). -/
theorem statusOfCode_eq_none_iff {c : BitVec 3} : statusOfCode c = none ↔ 6 ≤ c.toNat := by
  unfold statusOfCode
  split
  case h_7 h0 h1 h2 h3 h4 h5 =>
    have hne : c.toNat ≠ 0 ∧ c.toNat ≠ 1 ∧ c.toNat ≠ 2 ∧ c.toNat ≠ 3 ∧ c.toNat ≠ 4 ∧ c.toNat ≠ 5 := ⟨h0, h1, h2, h3, h4, h5⟩
    exact ⟨fun _ => by omega, fun _ => rfl⟩
  all_goals exact ⟨nofun, fun _ => by omega⟩

/-- A word is no response exactly when its code names no status (R75, R76). -/
theorem readResponse_eq_none_iff {w : ResponseWord} :
    readResponse w = none ↔ statusOfCode (w.extractLsb' 1 3) = none := by
  unfold readResponse
  split <;> simp_all

/-- Settles O16: a word from 0xC on is one whose code, its upper three bits, is 6 or 7. -/
theorem responseWordCarriesStatusAndResult : Obligations.ResponseWordCarriesStatusAndResult := by
  refine ⟨fun st r => ⟨responseWord_toNat st r, readResponse_responseWord st r⟩, fun w => ?_⟩
  have := w.isLt
  rw [readResponse_eq_none_iff, statusOfCode_eq_none_iff, BitVec.extractLsb'_toNat, Nat.shiftRight_eq_div_pow]
  omega

end Sys2Proof.Machine

/-!
# The construction (40_construct.md)

What NEW answers in each of its four cases, and what a constructed vector holds. From them the statements of the family.
-/

/-! ## When an allocation fits -/

namespace Sys2Proof.Machine

/-- Only the vector of width 0 has no shards (R92). -/
theorem shardsNeeded_eq_zero_iff {w : Nat} : shardsNeeded w = 0 ↔ w = 0 := by
  simp only [shardsNeeded, ceilDiv, shardBits_eq]
  omega

/-- In an allocation that fits every shard has a memory long enough for it (R94). -/
theorem fits_iff_every_shard {p : Config.Params} {w : Nat} :
    fits p w = true ↔ shardsNeeded w ≤ p.maxShards ∧ ∀ i < shardsNeeded w, bytesNeeded w i ≤ p.shardMemBytes := by
  rw [fits_iff]
  refine and_congr_right fun _ => ⟨fun h i hi => ?_, fun h => ?_⟩
  · have hfirst : bytesNeeded w 0 ≤ p.shardMemBytes := h.resolve_left (by omega)
    exact (bytesNeeded_le_first w i).trans hfirst
  · exact (Nat.eq_zero_or_pos _).imp_right (h 0)

/-- A vector with no shards fits every block (R95). -/
theorem fits_zero (p : Config.Params) : fits p 0 = true :=
  fits_iff.2 ⟨shardsNeeded_zero ▸ Nat.zero_le _, .inl shardsNeeded_zero⟩

/-- An allocation that fits lies inside physical memory (R25, R94). -/
theorem byteExists_of_fits {p : Config.Params} {w i j : Nat} (h : fits p w = true) (hi : i < shardsNeeded w)
    (hj : j < bytesNeeded w i) : ByteExists p i j := by
  obtain ⟨hcount, hlen⟩ := fits_iff_every_shard.1 h
  exact ⟨hi.trans_le hcount, hj.trans_le (hlen i hi)⟩

/-! ## The four cases of NEW, in the order of R147 -/

theorem exec_new_of_configured {s : State} (hc : s.configured = true) (w : Arg) :
    exec (.new w) s = .next (s.respond .alreadyConstructed false) := by
  rw [exec_new, execNew, if_pos hc, raiseError_eq]

theorem exec_new_of_neg {s : State} {w : Arg} (hc : s.configured = false) (hw : signed64 w < 0) :
    exec (.new w) s = .next (s.respond .invalidWidth false) := by
  rw [exec_new, execNew, if_neg (by simp [hc]), if_pos hw, raiseError_eq]

theorem toNat_signed64_of_nonneg {w : Arg} (hw : 0 ≤ signed64 w) : (signed64 w).toNat = w.toNat := by
  rw [(signed64_of_nonneg hw).1, Int.toNat_natCast]

/-- NEW of a width that is not negative goes by whether the allocation fits (R94). -/
theorem exec_new_of_nonneg {s : State} {w : Arg} (hc : s.configured = false) (hw : 0 ≤ signed64 w) :
    exec (.new w) s =
      if fits s.phys w.toNat = false then .next (s.respond .allocFail false)
      else .next ((construct w.toNat s).respond .ok false) := by
  rw [exec_new, execNew, if_neg (by simp [hc]), if_neg (Int.not_lt.2 hw), toNat_signed64_of_nonneg hw, raiseError_eq]

theorem exec_new_of_not_fits {s : State} {w : Arg} (hc : s.configured = false) (hw : 0 ≤ signed64 w)
    (hfits : fits s.phys w.toNat = false) : exec (.new w) s = .next (s.respond .allocFail false) := by
  rw [exec_new_of_nonneg hc hw, if_pos hfits]

theorem exec_new_of_fits {s : State} {w : Arg} (hc : s.configured = false) (hw : 0 ≤ signed64 w)
    (hfits : fits s.phys w.toNat = true) : exec (.new w) s = .next ((construct w.toNat s).respond .ok false) := by
  rw [exec_new_of_nonneg hc hw, if_neg (by simp [hfits])]

/-- A NEW that leaves an unconfigured block configured has constructed the vector of its operand (R21, R93). -/
theorem construct_of_exec_new {s t : State} {w : Arg} (hc : s.configured = false) (he : exec (.new w) s = .next t)
    (ht : t.configured = true) :
    0 ≤ signed64 w ∧ fits s.phys w.toNat = true ∧ t = (construct w.toNat s).respond .ok false := by
  cases exec_next he with
  | refused => rw [respond_configured, hc] at ht; cases ht
  | tested hi => cases hi
  | rewrote hi => cases hi
  | constructed hi _ hw hfits =>
    cases hi
    rw [toNat_signed64_of_nonneg hw] at hfits ⊢
    exact ⟨hw, hfits, rfl⟩

/-! ## The constructed vector -/

/-- No register truncates the width of an operand (R92). -/
theorem construct_toNat_width (w : Arg) (s : State) : (construct w.toNat s).width = w := by
  rw [construct_width, BitVec.ofNat_toNat, BitVec.setWidth_eq]

/-- No register truncates the shard count (R92). -/
theorem construct_shardCount_toNat {w : Nat} (s : State) (hw : w < 9223372036854775808) :
    (construct w s).shardCount.toNat = shardsNeeded w := by
  rw [construct_shardCount, BitVec.toNat_ofNat, Nat.mod_eq_of_lt ((shardsNeeded_lt hw).trans_lt (by norm_num))]

/-- The registers `shardLen` after a construction, by the formula of R24. -/
theorem construct_shardLenAt (w : Nat) (s : State) (i : Nat) :
    (shardLenAt (construct w s).shardLen i).toNat =
      if i < ceilDiv w 2147483647 then ceilDiv (min 2147483647 (w - 2147483647 * i)) 8 else 0 := by
  rw [construct_shardLen, shardLenAt_table, bytesNeeded_eq, shardsNeeded, shardBits_eq]

/-- A construction zeroes every byte that it allocates (R53, R93). -/
theorem byteAt_construct_of_allocated {w : Nat} {s : State} {i j : Nat} (hw : w < 9223372036854775808)
    (hj : j < Config.shardBytesFull) (ha : Allocated (construct w s) i j) : byteAt (construct w s) i j = 0#8 := by
  rw [byteAt_construct, if_pos ((allocated_construct s hw hj).1 ha)]

/-- A construction writes no byte that it does not allocate (R53, R93). -/
theorem byteAt_construct_of_not_allocated {w : Nat} {s : State} {i j : Nat} (hw : w < 9223372036854775808)
    (hj : j < Config.shardBytesFull) (ha : ¬ Allocated (construct w s) i j) : byteAt (construct w s) i j = byteAt s i j := by
  rw [byteAt_construct, if_neg (mt (allocated_construct s hw hj).2 ha)]

/-- Every bit number below the width of a constructed vector addresses an allocated byte (R26, R44). -/
theorem allocated_construct_of_lt {w b : Nat} (s : State) (hw : w < 9223372036854775808) (hb : b < w) :
    Allocated (construct w s) (shardOf b) (byteOf b) :=
  (allocated_construct s hw (byteOf_lt b)).2 ((byteAddr_lt_allocEnd w _ _ (byteOf_lt b)).2 (coordinates_lt_shape hb))

/-- TEST of a bit in an allocated and existing byte answers that bit, in any state (R111). -/
theorem exec_test_of_allocated {s : State} {b : Arg} (h0 : 0 ≤ signed64 b) (hw : b.toNat < s.width.toNat)
    (ha : Allocated s (shardOf b.toNat) (byteOf b.toNat)) (he : ByteExists s.phys (shardOf b.toNat) (byteOf b.toNat)) :
    exec (.test b) s = .next (s.respond .ok (bitAt s b.toNat)) := by
  obtain ⟨i, j, k, -, -, hk, hhit⟩ := frontEnd_of_allocated h0 hw ha he
  rw [exec_test, readBit_of_hit hhit, testedBit_eq, hk, bitAt, byteAt]

end Sys2Proof.Machine

/-! ## The statements of the family -/

namespace Sys2Proof.Machine

/-- Settles O27: the premises are those of the fourth case of NEW, and the registers and bytes are those of `construct`. -/
theorem newConstructsTheVector : Obligations.NewConstructsTheVector := by
  intro s w hc h0 hcount hlen
  have hw := (signed64_of_nonneg h0).2
  have hfits : fits s.phys w.toNat = true := by
    refine fits_iff.2 ⟨hcount, hlen.imp shardsNeeded_eq_zero_iff.2 fun hfirst => ?_⟩
    rwa [bytesNeeded_eq]
  refine ⟨_, exec_new_of_fits hc h0 hfits, rfl, construct_toNat_width w s, construct_shardCount_toNat s hw,
    construct_shardLenAt w.toNat s, fun i j hj => ?_, fun i j hj => ?_, rfl, rfl, rfl⟩
  · exact byteAt_construct_of_allocated hw hj
  · exact byteAt_construct_of_not_allocated hw hj

/-- Settles O28, one case of NEW for each clause. -/
theorem newErrorsInOrderChangeNothing : Obligations.NewErrorsInOrderChangeNothing := fun _ w =>
  ⟨fun hc => exec_new_of_configured hc w, exec_new_of_neg, exec_new_of_not_fits,
    fun hc hw hfits => ⟨_, exec_new_of_fits hc hw hfits, rfl, rfl⟩⟩

/-- Settles O30: shard 0 is the longest, so it decides for all; no shard is longer than the largest memory. -/
theorem allocationFitsWhenEveryShardFits : Obligations.AllocationFitsWhenEveryShardFits :=
  ⟨fun _ _ => fits_iff, fun _ _ => fits_iff_every_shard, fun _ _ => exec_new_of_not_fits,
    fun w hw => fits_iff.2 ⟨shardsNeeded_lt hw, .inr (bytesNeeded_le w 0)⟩⟩

/-- Settles O31: width 0 allocates no byte and puts every bit number out of range. -/
theorem newZeroHasNoShards : Obligations.NewZeroHasNoShards := by
  intro s hc
  refine ⟨_, exec_new_of_fits hc (by decide) (fits_zero _), rfl, rfl, rfl, fun a => ?_, rfl, fun i b hi => ?_,
    exec_new_of_configured rfl⟩
  · rw [respond_storage, construct_storage, read_zeroBelow, BitVec.toNat_zero, allocEnd_zero, if_neg (Nat.not_lt_zero a)]
  · refine exec_outOfRange hi fun ⟨h0, hlt⟩ => ?_
    rw [respond_width, construct_toNat_width, BitVec.toNat_zero] at hlt
    omega

/-- Settles O32: such a NEW is a construction, whose bytes are allocated, exist and hold 0. -/
theorem allClearAfterConstruction : Obligations.AllClearAfterConstruction := by
  intro s t w b hc he ht hb hlt
  obtain ⟨hw, hfits, rfl⟩ := construct_of_exec_new hc he ht
  obtain ⟨hwnat, hwlt⟩ := signed64_of_nonneg hw
  have hbw : b.toNat < w.toNat := by
    have := (signed64_of_nonneg hb).1
    omega
  obtain ⟨hshard, hbyte⟩ := coordinates_lt_shape hbw
  have hwidth : b.toNat < ((construct w.toNat s).respond .ok false).width.toNat := by
    rwa [respond_width, construct_toNat_width]
  have halloc := (allocated_respond _ .ok false _ _).2 (allocated_construct_of_lt s hwlt hbw)
  have hbit : bitAt ((construct w.toNat s).respond .ok false) b.toNat = false := bitAt_construct s hbw
  rw [exec_test_of_allocated hb hwidth halloc (byteExists_of_fits hfits hshard hbyte), hbit]
  rfl

/-- Settles O29. -/
theorem shardCountBoundsOfR92 : Obligations.ShardCountBoundsOfR92 :=
  ⟨fun _ => shardsNeeded_lt, by decide, fun _ => shardsNeeded_eq_zero_iff, by decide⟩

end Sys2Proof.Machine

/-!
# The accessors (41_bit_ops.md)

What an accessor in range makes of its byte and of its bit, and what a TEST after it answers. From them the statements
of the family.
-/

/-! ## The cell of a bit number -/

namespace Sys2Proof.Machine

/-- The first eight bit numbers are the bits of the first byte (R41). -/
theorem coordinates_of_lt_eight {b : Nat} (hb : b < 8) : shardOf b = 0 ∧ byteOf b = 0 ∧ bitOf b = b := by
  have hnum : bitNumber 0 0 b = b := by rw [bitNumber]; omega
  have hcell := coordinates_bitNumber (i := 0) (j := 0) hb (by rw [shardBits_eq]; omega)
  rwa [hnum] at hcell

theorem bitAt_of_lt_eight (s : State) {b : Nat} (hb : b < 8) : bitAt s b = (byteAt s 0 0).getLsbD b := by
  obtain ⟨hshard, hbyte, hbit⟩ := coordinates_of_lt_eight hb
  rw [bitAt, hshard, hbyte, hbit]

/-- The mask of a cell, as the rules write it (R48). -/
theorem cellMask_eq (b : Nat) : cellMask b = 1#8 <<< bitOf b := by
  rw [cellMask, bitMask, BitVec.toNat_ofNat, Nat.mod_eq_of_lt (bitOf_lt b)]

/-- The bit of a cell, as R111 writes it. -/
theorem shiftRight_and_one_iff (s : State) (b : Nat) :
    (byteAt s (shardOf b) (byteOf b) >>> bitOf b) &&& 1#8 = 1#8 ↔ bitAt s b = true := by
  have h := testedBit_eq (byteAt s (shardOf b) (byteOf b)) (BitVec.ofNat 3 (bitOf b))
  rw [testedBit, BitVec.toNat_ofNat, Nat.mod_eq_of_lt (bitOf_lt b)] at h
  rw [bitAt, ← h, decide_eq_true_iff]

/-- CLEAR's complement is the one on 8 bits of R106. -/
theorem clearByte_eq_and_xor (x m : Byte) : clearByte x m = x &&& (0xFF#8 ^^^ m) := by
  rw [clearByte, ← BitVec.allOnes_xor]
  rfl

/-! ## The addressed byte after an accessor -/

theorem byteAt_afterAccess (i : Instr) (b : Nat) (s : State) :
    byteAt (afterAccess i b s) (shardOf b) (byteOf b) = cellEffect i b (byteAt s (shardOf b) (byteOf b)) := by
  rw [byteAt, afterAccess_storage, read_modify, cellAddr, if_pos rfl, byteAt]

theorem byteAt_afterAccess_of_lt_eight (i : Instr) {b : Nat} (hb : b < 8) (s : State) :
    byteAt (afterAccess i b s) 0 0 = cellEffect i b (byteAt s 0 0) := by
  have h := byteAt_afterAccess i b s
  obtain ⟨hshard, hbyte, -⟩ := coordinates_of_lt_eight hb
  rwa [hshard, hbyte] at h

/-- An accessor changes no other bit of the addressed byte (R131). -/
theorem byteAt_afterAccess_getLsbD_of_ne (i : Instr) (b : Nat) (s : State) {n : Nat} (hne : n ≠ bitOf b) :
    (byteAt (afterAccess i b s) (shardOf b) (byteOf b)).getLsbD n = (byteAt s (shardOf b) (byteOf b)).getLsbD n := by
  rw [byteAt_afterAccess]
  rcases Nat.lt_or_ge n 8 with hn | hn
  · rw [cellEffect_getLsbD _ _ _ hn, if_neg hne]
  · rw [BitVec.getLsbD_of_ge _ _ hn, BitVec.getLsbD_of_ge _ _ hn]

/-- An accessor in range changes nothing but the addressed byte and returns one response (R131). -/
theorem onlyAddressedByte_afterAccess (i : Instr) (b : Arg) (s : State) :
    OnlyAddressedByte s (afterAccess i b.toNat s) b (responseWord .ok (bitResult i (bitAt s b.toNat))) where
  registers := by
    constructor <;> simp only [afterAccess_phys, afterAccess_configured, afterAccess_width, afterAccess_shardCount,
      afterAccess_shardLen]
  inputs_eq := afterAccess_inputs ..
  responses_eq := afterAccess_responses ..
  bytes_eq a ha := by rw [afterAccess_storage, read_modify, cellAddr, if_neg ha]

theorem Rewrites.isAccessor {i : Instr} {b : Arg} {f : Byte → Byte → Byte} (h : Rewrites i b f) : IsAccessor i b := by
  cases h with
  | set => exact .set b
  | clear => exact .clear b
  | flip => exact .flip b

/-- A rewriting accessor in range puts what it makes of the addressed byte and the mask in its place, and answers `OK`
with 0 (R101, R106, R116). -/
theorem Inv.exec_rewrites {s : State} (h : Inv s) {i : Instr} {b : Arg} {f : Byte → Byte → Byte} (hf : Rewrites i b f)
    (hw : InWidth s b) :
    ∃ t, exec i s = .next t ∧ OnlyAddressedByte s t b 0x0#4 ∧
      byteAt t (shardOf b.toNat) (byteOf b.toNat) =
        f (byteAt s (shardOf b.toNat) (byteOf b.toNat)) (1#8 <<< bitOf b.toNat) := by
  refine ⟨_, h.exec_accessor hf.isAccessor hw, ?_, ?_⟩
  · have hframe := onlyAddressedByte_afterAccess i b s
    rwa [hf.bitResult_eq] at hframe
  · rw [byteAt_afterAccess, cellEffect, hf.byteEffect_eq, cellMask_eq]

@[simp] theorem bitEffect_set (b : Arg) (x : Bool) : bitEffect (.set b) x = true := rfl

@[simp] theorem bitEffect_clear (b : Arg) (x : Bool) : bitEffect (.clear b) x = false := rfl

/-- A rewriting accessor in range answers `OK` with 0, whatever it makes of the addressed bit (R132). -/
theorem Inv.exec_rewrites_bitAt {s : State} (h : Inv s) {i : Instr} {b : Arg} {f : Byte → Byte → Byte}
    (hf : Rewrites i b f) (hw : InWidth s b) :
    ∃ t, exec i s = .next t ∧ bitAt t b.toNat = bitEffect i (bitAt s b.toNat) ∧
      t.responses = s.responses ++ [0x0#4] := by
  refine ⟨_, h.exec_accessor hf.isAccessor hw, ?_, ?_⟩
  · rw [bitAt_afterAccess, if_pos rfl]
  · rw [afterAccess_responses, hf.bitResult_eq]
    rfl

/-! ## TEST, alone and after an accessor -/

/-- TEST in range only answers, with the addressed bit (R111). -/
theorem Inv.exec_test_of_inWidth {s : State} (h : Inv s) {b : Arg} (hw : InWidth s b) :
    exec (.test b) s = .next (s.respond .ok (bitAt s b.toNat)) := by
  rw [h.exec_accessor (.test b) hw, h.afterAccess_of_fixed rfl]
  rfl

/-- What a TEST after an accessor answers: the new bit when both address it, else the bit as it was (R121, R122). -/
theorem Inv.exec_test_afterAccess {s : State} (h : Inv s) {i : Instr} {b c : Arg} (hi : IsAccessor i b) (hb : InWidth s b)
    (hc : InWidth s c) :
    exec (.test c) (afterAccess i b.toNat s) =
      .next ((afterAccess i b.toNat s).respond .ok
        (if c = b then bitEffect i (bitAt s c.toNat) else bitAt s c.toNat)) := by
  rw [(inv_afterAccess h hi hb).exec_test_of_inWidth (inWidth_afterAccess hc ..), bitAt_afterAccess]
  simp only [BitVec.toNat_inj]

/-! ## FLIP twice -/

/-- In a canonical memory a rewrite that the second time restores the byte leaves the memory as it was. -/
theorem modify_modify_of_restored {m : Memory} (h : m.wf) {a : Nat} {g : Byte → Byte}
    (hg : g (g (m.read a)) = m.read a) : (m.modify a g).modify a g = m := by
  refine memory_ext (modify_wf (modify_wf h ..) ..) h ?_ ?_ fun b => ?_
  · simp only [modify_eq_write, write_epoch]
  · simp only [modify_eq_write, write_zeroedBelow]
  rw [read_modify, read_modify, if_pos rfl, hg]
  split
  · next hb => rw [hb]
  · next hb => rw [read_modify, if_neg hb]

theorem cellEffect_flip_flip (c : Arg) (b : Nat) (x : Byte) : cellEffect (.flip c) b (cellEffect (.flip c) b x) = x := by
  rw [cellEffect, cellEffect, byteEffect, flipByte, flipByte, BitVec.xor_assoc, BitVec.xor_self, BitVec.xor_zero]

theorem respond_setStorage (s : State) (st : Status) (r : Bool) (m : Memory) :
    (s.respond st r).setStorage m = (s.setStorage m).respond st r := rfl

theorem setStorage_setStorage (s : State) (m n : Memory) : (s.setStorage m).setStorage n = s.setStorage n := rfl

/-- Under the invariant two FLIPs only answer (R123). -/
theorem Inv.afterAccess_flip_flip {s : State} (h : Inv s) (c : Arg) (b : Nat) :
    afterAccess (.flip c) b (afterAccess (.flip c) b s) = (s.respond .ok false).respond .ok false := by
  have hmem := modify_modify_of_restored h.storage_wf (cellEffect_flip_flip c b (s.storage.read (cellAddr b)))
  rw [afterAccess, afterAccess_storage, hmem, afterAccess, respond_setStorage, setStorage_setStorage, setStorage_self]
  rfl

end Sys2Proof.Machine

/-! ## The statements of the family -/

namespace Sys2Proof.Machine

/-- Settles O35. -/
theorem setOrsTheAddressedBit : Obligations.SetOrsTheAddressedBit := by
  refine ⟨fun _ => rfl, fun s b h => h.exec_rewrites (.set b), fun s b => exec_outOfRange (.set b),
    fun s h hwidth hbyte => ?_⟩
  have hw : InWidth s 3#64 := by rw [InWidth, hwidth]; decide
  refine ⟨_, h.exec_accessor (.set _) hw, ?_⟩
  rw [byteAt_afterAccess_of_lt_eight _ (by decide), hbyte]
  decide

/-- Settles O36. -/
theorem clearMasksTheAddressedBit : Obligations.ClearMasksTheAddressedBit := by
  refine ⟨fun _ => rfl, fun s b h hw => ?_, fun s b => exec_outOfRange (.clear b), fun s h hwidth hbyte => ?_⟩
  · rw [← clearByte_eq_and_xor]
    exact h.exec_rewrites (.clear b) hw
  · have hw : InWidth s 0#64 := ⟨by decide, Int.ofNat_lt.2 hwidth⟩
    refine ⟨_, h.exec_accessor (.clear _) hw, ?_⟩
    rw [byteAt_afterAccess_of_lt_eight _ (by decide), hbyte]
    decide

/-- Settles O37; in the worked example the SET has changed bit 3 of a clear byte and no other. -/
theorem testReturnsTheAddressedBit : Obligations.TestReturnsTheAddressedBit := by
  refine ⟨fun _ => rfl, fun s b h hw => ?_, fun s b => exec_outOfRange (.test b), fun s t h hwidth hbyte he => ?_⟩
  · rw [h.exec_test_of_inWidth hw]
    simp only [shiftRight_and_one_iff]
    cases bitAt s b.toNat <;> rfl
  · have hw : ∀ c : Arg, c.toNat < 8 → InWidth s c := fun c hc => by
      rw [InWidth, hwidth, signed64, if_pos (by omega)]
      exact ⟨Int.natCast_nonneg _, Int.ofNat_lt.2 (hc.trans (by decide))⟩
    have hbit : ∀ b < 8, bitAt s b = false := fun b hb => by
      rw [bitAt_of_lt_eight s hb, hbyte, BitVec.getLsbD_zero]
    have hset : InWidth s 3#64 := hw _ (by decide)
    rw [h.exec_accessor (.set _) hset] at he
    obtain rfl := Host.Outcome.next.inj he
    have hother : ∀ c : Arg, c.toNat < 8 → c ≠ 3#64 → exec (.test c) (afterAccess (.set 3#64) (3#64 : Arg).toNat s) =
        .next ((afterAccess (.set 3#64) (3#64 : Arg).toNat s).respond .ok false) := fun c hc hne => by
      rw [h.exec_test_afterAccess (.set _) hset (hw c hc), if_neg hne, hbit _ hc]
    refine ⟨?_, hother _ (by decide) (by decide), hother _ (by decide) (by decide)⟩
    rw [h.exec_test_afterAccess (.set _) hset hset, if_pos rfl, bitEffect_set]
    rfl

/-- Settles O38. -/
theorem flipXorsTheAddressedBit : Obligations.FlipXorsTheAddressedBit := by
  refine ⟨fun _ => rfl, fun s b h => h.exec_rewrites (.flip b), fun s b => exec_outOfRange (.flip b),
    fun s h hwidth hbyte => ?_⟩
  have hw : InWidth s 7#64 := ⟨by decide, Int.ofNat_lt.2 hwidth⟩
  have hfirst : byteAt (afterAccess (.flip 7#64) (7#64 : Arg).toNat s) 0 0 = 0x80#8 := by
    rw [byteAt_afterAccess_of_lt_eight _ (by decide), hbyte]
    decide
  refine ⟨_, _, h.exec_accessor (.flip _) hw, hfirst,
    (inv_afterAccess h (.flip _) hw).exec_accessor (.flip _) (inWidth_afterAccess hw ..), ?_⟩
  rw [byteAt_afterAccess_of_lt_eight _ (by decide), hfirst]
  decide

/-- Settles O39. -/
theorem outOfRangeAccessorChangesNothing : Obligations.OutOfRangeAccessorChangesNothing := by
  intro s i b hi hout
  exact exec_outOfRange hi fun ⟨h0, hlt⟩ => hout.elim (Int.not_lt.2 h0) (Int.not_le.2 hlt)

/-- Settles O40. -/
theorem accessorFootprint : Obligations.AccessorFootprint := by
  intro s i b h hi hw
  refine ⟨_, _, h.exec_accessor hi hw, onlyAddressedByte_afterAccess i b s,
    fun n => byteAt_afterAccess_getLsbD_of_ne i b.toNat s, ?_⟩
  rintro rfl
  rw [h.afterAccess_of_fixed rfl, respond_storage]

/-- Settles O41, one row for each accessor. -/
theorem truthTableOfR132 : Obligations.TruthTableOfR132 := fun _ b h hw =>
  ⟨h.exec_rewrites_bitAt (.set b) hw, h.exec_rewrites_bitAt (.clear b) hw, h.exec_rewrites_bitAt (.flip b) hw,
    ⟨_, h.exec_test_of_inWidth hw, rfl, rfl⟩⟩

/-- Settles O42. -/
theorem setClearRoundTrip : Obligations.SetClearRoundTrip := by
  refine fun s b h hw => ⟨⟨_, h.exec_accessor (.set b) hw, ?_⟩, ⟨_, h.exec_accessor (.clear b) hw, ?_⟩⟩
  · rw [h.exec_test_afterAccess (.set b) hw hw, if_pos rfl, bitEffect_set]
    rfl
  · rw [h.exec_test_afterAccess (.clear b) hw hw, if_pos rfl, bitEffect_clear]
    rfl

/-- Settles O43: the accessor leaves the other bit, which is all that TEST reads. -/
theorem noCrossBitInterference : Obligations.NoCrossBitInterference := by
  intro s i b c h hi hb hc hne
  refine ⟨_, h.exec_accessor hi hb, h.exec_test_of_inWidth hc, ?_⟩
  rw [h.exec_test_afterAccess hi hb hc, if_neg hne.symm]
  rfl

/-- Settles O44: in a canonical memory the byte restored is the memory restored. -/
theorem doubleFlipRestoresTheState : Obligations.DoubleFlipRestoresTheState := by
  intro s b h hw
  refine ⟨_, h.exec_accessor (.flip b) hw, ?_⟩
  rw [(inv_afterAccess h (.flip b) hw).exec_accessor (.flip b) (inWidth_afterAccess hw ..), h.afterAccess_flip_flip,
    State.respond, State.respond, List.append_assoc]
  rfl

end Sys2Proof.Machine

/-!
# The error outcomes (60_exceptions.md)

What a command word answers, whether it is performed, refused or reserved. From it the statements of the family.
-/

/-! ## One response for every command word -/

namespace Sys2Proof.Machine

/-- From `s` to `t` a command word that decodes to `d` has been answered once, with the status `st` and the RESULT `r`:
an error does nothing else, and a RESULT of 1 is the bit that a TEST has read (R77, R140). -/
structure AnsweredOnce (d : Except DecodeError Instr) (s t : State) (st : Status) (r : Bool) : Prop where
  responses_eq : t.responses = s.responses ++ [responseWord st r]
  inputs_eq : t.inputs = s.inputs
  error_eq : st ≠ .ok → t = s.respond st false
  result_iff : r = true ↔ ∃ b, d = .ok (.test b) ∧ st = .ok ∧ bitAt s b.toNat = true

/-- An error response is the whole effect of an error (R143). -/
theorem answeredOnce_of_error (d : Except DecodeError Instr) (s : State) {st : Status} (hst : st ≠ .ok) :
    AnsweredOnce d s (s.respond st false) st false where
  responses_eq := rfl
  inputs_eq := rfl
  error_eq _ := rfl
  result_iff := by simp [hst]

/-- A command other than TEST that answers `OK` with 0, whatever it has done to the storage and the registers. -/
theorem answeredOnce_of_ne_test {i : Instr} {s u : State} (hne : ∀ b, i ≠ .test b) (hresp : u.responses = s.responses)
    (hin : u.inputs = s.inputs) : AnsweredOnce (.ok i) s (u.respond .ok false) .ok false where
  responses_eq := by rw [respond_responses, hresp]
  inputs_eq := by rw [respond_inputs, hin]
  error_eq hst := absurd rfl hst
  result_iff := by simp [hne]

/-- What TEST returns where the front end hits is the addressed bit (R111). -/
theorem testedBit_of_hit {b : Arg} {s : State} {i : ShardIdx} {j : ByteIdx} {k : BitOff} {old : Byte}
    (h : frontEnd b s = .hit i j k old) : testedBit old k = bitAt s b.toNat := by
  obtain ⟨-, -, -, -, hk, -, -, hold⟩ := frontEnd_hit h
  rw [testedBit_eq, hk, hold, bitAt, byteAt]

theorem answeredOnce_of_tested (b : Arg) (s : State) :
    AnsweredOnce (.ok (.test b)) s (s.respond .ok (bitAt s b.toNat)) .ok (bitAt s b.toNat) where
  responses_eq := rfl
  inputs_eq := rfl
  error_eq hst := absurd rfl hst
  result_iff := by simp

/-- A command that answers a next state has answered once, whichever of its effects it had. -/
theorem exec_answeredOnce {i : Instr} {s t : State} (he : exec i s = .next t) :
    ∃ st r, AnsweredOnce (.ok i) s t st r := by
  cases exec_next he with
  | refused hst => exact ⟨_, _, answeredOnce_of_error _ s hst⟩
  | tested hi hhit =>
    rw [hi, testedBit_of_hit hhit]
    exact ⟨_, _, answeredOnce_of_tested _ s⟩
  | rewrote hi =>
    exact ⟨_, _, answeredOnce_of_ne_test (fun _ => hi.ne_test) (setStorage_responses ..) (setStorage_inputs ..)⟩
  | constructed hi =>
    exact ⟨_, _, answeredOnce_of_ne_test (by simp [hi]) (construct_responses ..) (construct_inputs ..)⟩

/-- Under the invariant a step answers the command word it takes once: by the decoder if the word is reserved, else by
the command. -/
theorem step_answeredOnce {s : State} (h : Inv s) {w : CommandWord} {rest : List HostInput}
    (hin : s.inputs = .command w :: rest) :
    ∃ t st r, step s = .next t ∧ AnsweredOnce (decode w) { s with inputs := rest } t st r := by
  rcases hd : decode w with e | i
  · exact ⟨_, _, _, step_reserved hin hd, answeredOnce_of_error _ _ (by decide)⟩
  · obtain ⟨t, he⟩ := exec_completes (inv_inputs h rest) i
    obtain ⟨st, r, hans⟩ := exec_answeredOnce he
    exact ⟨t, st, r, (step_command hin hd).trans he, hans⟩

end Sys2Proof.Machine

/-! ## The statements of the family -/

namespace Sys2Proof.Machine

/-- Settles O9: the clauses are those of `AnsweredOnce`. -/
theorem everyCommandReturnsOneResponse : Obligations.EveryCommandReturnsOneResponse := by
  intro s w rest h hin
  obtain ⟨t, st, r, hstep, hans⟩ := step_answeredOnce h hin
  exact ⟨t, st, r, hstep, hans.responses_eq, hans.inputs_eq, hans.error_eq, hans.result_iff⟩

/-- Settles O7: a step that finds nothing sent is idle. -/
theorem idleStepHoldsAllState : Obligations.IdleStepHoldsAllState := fun _ => step_idle

end Sys2Proof.Machine

/-!
# Reset (70_reset_and_hazards.md)

What a reset pulse clears and what it leaves, between commands or during one. From it the statement of the family.
-/

/-! ## A step that takes a reset pulse -/

namespace Sys2Proof.Machine

/-- Both forms of the pulse do the same: the command that R161 abandons leaves nothing behind. -/
theorem step_resetPulse {s : State} {x : HostInput} {rest : List HostInput} (hin : s.inputs = x :: rest)
    (hx : x = .reset ∨ ∃ w, x = .resetDuring w) : step s = .next (resetBlock { s with inputs := rest }) := by
  rcases hx with rfl | ⟨w, rfl⟩
  · exact step_reset hin
  · exact step_resetDuring hin

theorem resetBlock_shardLenAt (s : State) (i : Nat) : shardLenAt (resetBlock s).shardLen i = 0#29 := by
  rw [resetBlock_shardLen, shardLenAt]

end Sys2Proof.Machine

/-! ## The statement of the family -/

namespace Sys2Proof.Machine

/-- Settles O5: the step is `resetBlock` of the state without the pulse, whose fields the laws of `resetBlock` give. -/
theorem resetPulseAbandonsAndClears : Obligations.ResetPulseAbandonsAndClears := by
  intro s x rest hin hx
  have hconf := resetBlock_configured { s with inputs := rest }
  exact ⟨_, step_resetPulse hin hx, hconf, resetBlock_width _, resetBlock_shardCount _, resetBlock_shardLenAt _,
    not_allocated_of_unconfigured hconf, resetBlock_responses _, resetBlock_inputs _, resetBlock_phys _⟩

end Sys2Proof.Machine
